-- ==== Sys2Proof/Word.lean ====
section
/-! DEFINITION. The widths of the 65816 (spec R6, R51): a byte is 8 bits, a word 16 bits, a long address 24 bits. -/

namespace Sys2Proof

/-- A byte, the unit of addressing (R50, R51). -/
abbrev Byte := BitVec 8

/-- A word: the width of A, X, Y, S, D and PC (R20, R51). -/
abbrev Word := BitVec 16

/-- A 24-bit address, `bank : offset` (R50). -/
abbrev Addr := BitVec 24

end Sys2Proof
end

