-- ==== Sys2Proof/Machine/Bytes.lean ====
section
/-! DEFINITION. The bytes of a word and the parts of a long address (spec R7 `a : b`, R50, R52). -/

namespace Sys2Proof

/-- Bits 7:0 of a word: AL, XL, YL, SL, DL, PCL (R20). -/
def loByte (w : Word) : Byte := w.extractLsb' 0 8

/-- Bits 15:8 of a word: AH, XH, YH, SH, DH, PCH (R20). -/
def hiByte (w : Word) : Byte := w.extractLsb' 8 8

/-- The word `hi : lo` (R7, R52). -/
def wordOf (hi lo : Byte) : Word := hi ++ lo

/-- The word with bits 7:0 replaced. -/
def setLo (w : Word) (lo : Byte) : Word := wordOf (hiByte w) lo

/-- The 24-bit address `bank : offset` (R50). -/
def longAddr (bank : Byte) (offset : Word) : Addr := bank ++ offset

/-- Bits 23:16 of a long address. -/
def bankOf (t : Addr) : Byte := t.extractLsb' 16 8

/-- Bits 15:0 of a long address. -/
def offsetOf (t : Addr) : Word := t.extractLsb' 0 16

/-- An offset in bank 0: the stack, the direct page, the vectors and JML's pointer (R54, R58). -/
def bank0 (offset : Word) : Addr := longAddr 0 offset

end Sys2Proof
end

