-- ==== Sys2Proof/Syntax.lean ====
section
/-! DEFINITION. The instructions: one constructor per row of spec/opcode_table.json, in its order (spec R3, R85). Operands are
named and typed as R82 has them. The two displacements are integers, as the source writes them (`r`); `WellFormed.lean` states
their ranges. The block moves carry their banks in the order of the instruction's bytes, destination first (R83). -/

namespace Sys2Proof

/-- An instruction of the 65816 subset (R3). -/
inductive Instr where
  | cop (imm8 : Byte)                 -- $02  COP #$FF  (Immediate/Stack, R110)
  | tsbDp (dp : Byte)                 -- $04  TSB $FF  (Direct Page, R172)
  | phd                               -- $0B  PHD  (Implied/Stack, R155)
  | tsbAbs (abs : Word)               -- $0C  TSB $FFFF  (Absolute, R172)
  | trbDp (dp : Byte)                 -- $14  TRB $FF  (Direct Page, R173)
  | tcs                               -- $1B  TCS  (Implied, R142)
  | trbAbs (abs : Word)               -- $1C  TRB $FFFF  (Absolute, R173)
  | jsl (long : Addr)                 -- $22  JSL $FFFFFF  (AbsoluteLong, R103)
  | pld                               -- $2B  PLD  (Implied/Stack, R160)
  | tsc                               -- $3B  TSC  (Implied, R144)
  | wdm (imm8 : Byte)                 -- $42  WDM #$FF  (Immediate, R113)
  | mvp (dstbank srcbank : Byte)      -- $44  MVP $FF,$FF  (Block Positive, R124)
  | phk                               -- $4B  PHK  (Implied/Stack, R156)
  | mvn (dstbank srcbank : Byte)      -- $54  MVN $FF,$FF  (Block Negative, R123)
  | phy                               -- $5A  PHY  (Implied/Stack, R158)
  | tcd                               -- $5B  TCD  (Implied, R141)
  | per (rel16 : Int)                 -- $62  PER $FFFFFF  (RelativeLong/S, R153)
  | stzDp (dp : Byte)                 -- $64  STZ $FF  (Direct Page, R171)
  | rtl                               -- $6B  RTL  (Implied/Stack, R104)
  | stzDpX (dp : Byte)                -- $74  STZ $FF,X  (Direct Page,X, R171)
  | ply                               -- $7A  PLY  (Implied/Stack, R162)
  | tdc                               -- $7B  TDC  (Implied, R143)
  | bra (rel8 : Int)                  -- $80  BRA $FFFF  (Relative, R105)
  | brl (rel16 : Int)                 -- $82  BRL $FFFFFF  (RelativeLong, R101)
  | phb                               -- $8B  PHB  (Implied/Stack, R154)
  | txy                               -- $9B  TXY  (Implied, R145)
  | stzAbs (abs : Word)               -- $9C  STZ $FFFF  (Absolute, R171)
  | stzAbsX (abs : Word)              -- $9E  STZ $FFFF,X  (Absolute,X, R171)
  | plb                               -- $AB  PLB  (Implied/Stack, R159)
  | tyx                               -- $BB  TYX  (Implied, R146)
  | rep (imm8 : Byte)                 -- $C2  REP #$FF  (Immediate, R130)
  | wai                               -- $CB  WAI  (Implied, R112)
  | pei (dp : Byte)                   -- $D4  PEI ($FF)  ((Indirect)/Stack, R152)
  | phx                               -- $DA  PHX  (Implied/Stack, R157)
  | stp                               -- $DB  STP  (Implied, R111)
  | jml (abs : Word)                  -- $DC  JML ($FFFF)  ((Abs.Ind.Long), R102)
  | sep (imm8 : Byte)                 -- $E2  SEP #$FF  (Immediate, R131)
  | xba                               -- $EB  XBA  (Implied, R140)
  | pea (imm16 : Word)                -- $F4  PEA #$FFFF  (Immediate/Stack, R151)
  | plx                               -- $FA  PLX  (Implied/Stack, R161)
  | xce                               -- $FB  XCE  (Implied, R132)
deriving DecidableEq, Repr

end Sys2Proof
end

