-- ==== Sys2Proof/WellFormed.lean ====
section
/-! DEFINITION. When an instruction is one that the encoding can hold (spec R82, R84): every value of an unsigned operand is legal
(R87 (d)); a displacement lies in the range of its field. -/

namespace Sys2Proof

/-- The range of an 8-bit two's-complement displacement, -128 to +127 (R82, R84). -/
def fitsRel8 (r : Int) : Bool := decide (-128 ≤ r ∧ r ≤ 127)

/-- The range of a 16-bit two's-complement displacement, -32768 to +32767, both ends included (R84, C1). -/
def fitsRel16 (r : Int) : Bool := decide (-32768 ≤ r ∧ r ≤ 32767)

/-- The instruction has an encoding: its displacement, if it has one, fits its field. -/
def Instr.wellFormed : Instr → Bool
  | .cop _ => true
  | .tsbDp _ => true
  | .phd => true
  | .tsbAbs _ => true
  | .trbDp _ => true
  | .tcs => true
  | .trbAbs _ => true
  | .jsl _ => true
  | .pld => true
  | .tsc => true
  | .wdm _ => true
  | .mvp _ _ => true
  | .phk => true
  | .mvn _ _ => true
  | .phy => true
  | .tcd => true
  | .per r => fitsRel16 r
  | .stzDp _ => true
  | .rtl => true
  | .stzDpX _ => true
  | .ply => true
  | .tdc => true
  | .bra r => fitsRel8 r
  | .brl r => fitsRel16 r
  | .phb => true
  | .txy => true
  | .stzAbs _ => true
  | .stzAbsX _ => true
  | .plb => true
  | .tyx => true
  | .rep _ => true
  | .wai => true
  | .pei _ => true
  | .phx => true
  | .stp => true
  | .jml _ => true
  | .sep _ => true
  | .xba => true
  | .pea _ => true
  | .plx => true
  | .xce => true

end Sys2Proof
end

