-- ==== Sys2Proof/Decode.lean ====
section
/-! DEFINITION. The decoder and the encoder (spec R80 to R87), both from the opcode map of R85 and the operand table of R82.
The first byte alone selects the instruction and its length; operand bytes follow low byte first, a bank byte last; the block
moves have the destination bank first (R83). No state bit changes the decoding (R88). -/

namespace Sys2Proof

/-- Why bytes are no instruction of the subset. The machine refuses with the same name. -/
inductive DecodeError where
  /-- The opcode byte is none of the 41 of R85: "opcode $xx is outside the specified subset" (R4, R87, D1). -/
  | outsideSubset (opcode : Byte)
deriving DecidableEq, Repr

/-- The instruction that starts with the bytes `b0 b1 b2 b3`, `b0` at the lowest address; bytes past its length are ignored
(R80, R82, R85). -/
def decode (b0 b1 b2 b3 : Byte) : Except DecodeError Instr :=
  match b0.toNat with
  | 0x02 => .ok (.cop b1)
  | 0x04 => .ok (.tsbDp b1)
  | 0x0B => .ok .phd
  | 0x0C => .ok (.tsbAbs (wordOf b2 b1))
  | 0x14 => .ok (.trbDp b1)
  | 0x1B => .ok .tcs
  | 0x1C => .ok (.trbAbs (wordOf b2 b1))
  | 0x22 => .ok (.jsl (longAddr b3 (wordOf b2 b1)))
  | 0x2B => .ok .pld
  | 0x3B => .ok .tsc
  | 0x42 => .ok (.wdm b1)
  | 0x44 => .ok (.mvp b1 b2)
  | 0x4B => .ok .phk
  | 0x54 => .ok (.mvn b1 b2)
  | 0x5A => .ok .phy
  | 0x5B => .ok .tcd
  | 0x62 => .ok (.per (wordOf b2 b1).toInt)
  | 0x64 => .ok (.stzDp b1)
  | 0x6B => .ok .rtl
  | 0x74 => .ok (.stzDpX b1)
  | 0x7A => .ok .ply
  | 0x7B => .ok .tdc
  | 0x80 => .ok (.bra b1.toInt)
  | 0x82 => .ok (.brl (wordOf b2 b1).toInt)
  | 0x8B => .ok .phb
  | 0x9B => .ok .txy
  | 0x9C => .ok (.stzAbs (wordOf b2 b1))
  | 0x9E => .ok (.stzAbsX (wordOf b2 b1))
  | 0xAB => .ok .plb
  | 0xBB => .ok .tyx
  | 0xC2 => .ok (.rep b1)
  | 0xCB => .ok .wai
  | 0xD4 => .ok (.pei b1)
  | 0xDA => .ok .phx
  | 0xDB => .ok .stp
  | 0xDC => .ok (.jml (wordOf b2 b1))
  | 0xE2 => .ok (.sep b1)
  | 0xEB => .ok .xba
  | 0xF4 => .ok (.pea (wordOf b2 b1))
  | 0xFA => .ok .plx
  | 0xFB => .ok .xce
  | _ => .error (.outsideSubset b0)

/-- The opcode byte (R85). -/
def Instr.opcode : Instr → Byte
  | .cop _ => 0x02#8
  | .tsbDp _ => 0x04#8
  | .phd => 0x0B#8
  | .tsbAbs _ => 0x0C#8
  | .trbDp _ => 0x14#8
  | .tcs => 0x1B#8
  | .trbAbs _ => 0x1C#8
  | .jsl _ => 0x22#8
  | .pld => 0x2B#8
  | .tsc => 0x3B#8
  | .wdm _ => 0x42#8
  | .mvp _ _ => 0x44#8
  | .phk => 0x4B#8
  | .mvn _ _ => 0x54#8
  | .phy => 0x5A#8
  | .tcd => 0x5B#8
  | .per _ => 0x62#8
  | .stzDp _ => 0x64#8
  | .rtl => 0x6B#8
  | .stzDpX _ => 0x74#8
  | .ply => 0x7A#8
  | .tdc => 0x7B#8
  | .bra _ => 0x80#8
  | .brl _ => 0x82#8
  | .phb => 0x8B#8
  | .txy => 0x9B#8
  | .stzAbs _ => 0x9C#8
  | .stzAbsX _ => 0x9E#8
  | .plb => 0xAB#8
  | .tyx => 0xBB#8
  | .rep _ => 0xC2#8
  | .wai => 0xCB#8
  | .pei _ => 0xD4#8
  | .phx => 0xDA#8
  | .stp => 0xDB#8
  | .jml _ => 0xDC#8
  | .sep _ => 0xE2#8
  | .xba => 0xEB#8
  | .pea _ => 0xF4#8
  | .plx => 0xFA#8
  | .xce => 0xFB#8

/-- The operand bytes in memory order (R81, R82, R83). -/
def Instr.operandBytes : Instr → List Byte
  | .cop m => [m]
  | .tsbDp m => [m]
  | .phd => []
  | .tsbAbs w => [loByte w, hiByte w]
  | .trbDp m => [m]
  | .tcs => []
  | .trbAbs w => [loByte w, hiByte w]
  | .jsl t => [loByte (offsetOf t), hiByte (offsetOf t), bankOf t]
  | .pld => []
  | .tsc => []
  | .wdm m => [m]
  | .mvp dst src => [dst, src]
  | .phk => []
  | .mvn dst src => [dst, src]
  | .phy => []
  | .tcd => []
  | .per r => [loByte (BitVec.ofInt 16 r), hiByte (BitVec.ofInt 16 r)]
  | .stzDp m => [m]
  | .rtl => []
  | .stzDpX m => [m]
  | .ply => []
  | .tdc => []
  | .bra r => [BitVec.ofInt 8 r]
  | .brl r => [loByte (BitVec.ofInt 16 r), hiByte (BitVec.ofInt 16 r)]
  | .phb => []
  | .txy => []
  | .stzAbs w => [loByte w, hiByte w]
  | .stzAbsX w => [loByte w, hiByte w]
  | .plb => []
  | .tyx => []
  | .rep m => [m]
  | .wai => []
  | .pei m => [m]
  | .phx => []
  | .stp => []
  | .jml w => [loByte w, hiByte w]
  | .sep m => [m]
  | .xba => []
  | .pea w => [loByte w, hiByte w]
  | .plx => []
  | .xce => []

/-- The bytes of an instruction, the one at the lowest address first (R81). -/
def encode (i : Instr) : List Byte := i.opcode :: i.operandBytes

/-- The length in bytes, a constant of each opcode: the source's "No. Bytes" (R80, R85). -/
def Instr.length : Instr → Nat
  | .cop _ => 2
  | .tsbDp _ => 2
  | .phd => 1
  | .tsbAbs _ => 3
  | .trbDp _ => 2
  | .tcs => 1
  | .trbAbs _ => 3
  | .jsl _ => 4
  | .pld => 1
  | .tsc => 1
  | .wdm _ => 2
  | .mvp _ _ => 3
  | .phk => 1
  | .mvn _ _ => 3
  | .phy => 1
  | .tcd => 1
  | .per _ => 3
  | .stzDp _ => 2
  | .rtl => 1
  | .stzDpX _ => 2
  | .ply => 1
  | .tdc => 1
  | .bra _ => 2
  | .brl _ => 3
  | .phb => 1
  | .txy => 1
  | .stzAbs _ => 3
  | .stzAbsX _ => 3
  | .plb => 1
  | .tyx => 1
  | .rep _ => 2
  | .wai => 1
  | .pei _ => 2
  | .phx => 1
  | .stp => 1
  | .jml _ => 3
  | .sep _ => 2
  | .xba => 1
  | .pea _ => 3
  | .plx => 1
  | .xce => 1

/-- Byte `k` of the instruction whose bits are `w`, numbered as spec/opcode_table.json numbers them: byte 0 in bits 7:0 (R86). -/
def tableByte (w k : Nat) : Byte := BitVec.ofNat 8 (w / 256 ^ k)

/-- The four bytes of the instruction with the `nbits` low bits of `w`, every bit above them zero. -/
def tableBytes (nbits w : Nat) : List Byte :=
  [tableByte (w % 2 ^ nbits) 0, tableByte (w % 2 ^ nbits) 1, tableByte (w % 2 ^ nbits) 2, tableByte (w % 2 ^ nbits) 3]

/-- What the decoder reads from the instruction whose bits are `w`. -/
def decodeTableWord (nbits w : Nat) : Option Instr :=
  let v := w % 2 ^ nbits
  match decode (tableByte v 0) (tableByte v 1) (tableByte v 2) (tableByte v 3) with
  | .ok i => some i
  | .error _ => none

end Sys2Proof
end

