-- ==== Sys2Proof/Config.lean ====
section
/-! DEFINITION. The free values of the model: constants with no body, so that nothing can be proved of their values.
Each is applied to the step counter `tick` of the state, so that every step draws fresh ones (log entries 4, 10, 11, 12). -/

namespace Sys2Proof

/-- Which access of a step reads a byte whose value the platform chooses: one step reads one address at most once
for each kind, so the kind tells its reads apart (log entry 4). -/
inductive AccessKind where
  | fetch   -- a byte of the instruction (R27)
  | data    -- an operand, a pulled byte, a pointer (R53, R54)
  | vector  -- a byte of an interrupt or reset vector (R203)
deriving DecidableEq, Repr

/-- The components a reset does not initialise (R45). -/
inductive ResetItem where
  | al | ah | xl | yl | sl
  | flags   -- N, V, Z and C, at their bit positions of P
deriving DecidableEq, Repr

/-- What a read of an address that is a device or nothing returns (R57, D4, D23: "any value"). -/
opaque Config.openByte (tick : Nat) (kind : AccessKind) (addr : Nat) : Byte

/-- Whether the mask test at the boundary after a REP or SEP that changed `P.I` uses the value `P.I` had before that
instruction (R207, D19: both outcomes are admitted). -/
opaque Config.irqSampledBefore (tick : Nat) : Bool

/-- The value a component holds after a reset that does not initialise it (R45, U3, U13: `ResetUnspecified`). -/
opaque Config.resetByte (tick : Nat) (item : ResetItem) : Byte

/-- Whether a byte written by a step that a reset cut short holds the new value (U13: "any value of {old, new}"). -/
opaque Config.cutWriteLands (tick : Nat) (addr : Nat) : Bool

/-- How many of the device writes of a step that a reset cut short were performed (R230: "some, all or none"). -/
opaque Config.cutDeviceWrites (tick : Nat) : Nat

end Sys2Proof
end

