-- ==== Sys2Proof/Machine/State.lean ====
section
/-! DEFINITION. The state of the machine as plain data (spec R20, R36, R37, R39), the reasons a step can stop, and the state
after reset (R44, R45). INVENTORY.md lists every field with its rule and its reset value. -/

namespace Sys2Proof.Machine

/-- Whether instructions are being executed (R36). -/
inductive RunState where
  | running | waiting | stopped
deriving DecidableEq, Repr

/-- What the platform has at an address (R6 `MemMap`). -/
inductive RegionKind where
  | ram      -- a read returns the byte last written (R53)
  | rom      -- a read returns its contents; a write has no effect (U11)
  | device   -- a read returns what the platform chooses; the platform sees a write (R57, R221 (c))
  | nothing  -- a read returns any value; a write has no effect (U11, D23)
deriving DecidableEq, Repr

/-- A range of addresses of the memory map: `size` bytes from `base` on (R6 `MemMap`). -/
structure Region where
  base : Nat
  size : Nat
  kind : RegionKind
deriving DecidableEq, Repr

/-- The interrupt inputs that one instruction boundary presents (R6 `IntSchedule`, R37, R202). -/
structure Inputs where
  /-- RESET is asserted at this boundary (R207 line 1). -/
  reset : Bool
  /-- RESET arrives while the step that starts at this boundary is in progress and cuts it short (R230, U13). -/
  resetDuring : Bool
  /-- A falling edge of NMI has arrived since the boundary before (R37, R202). -/
  nmi : Bool
  /-- The level of IRQ: asserted (R37, R202). -/
  irq : Bool
  /-- ABORT is asserted during the instruction that starts at this boundary, or during the wait (R208). -/
  abort : Bool
deriving DecidableEq, Repr

/-- No input asserted: what every boundary after the end of the schedule presents (R6, D9). -/
def Inputs.quiet : Inputs := { reset := false, resetDuring := false, nmi := false, irq := false, abort := false }

/-- The open parameter `EmuStackCross` (R6, D13): what PEA, PEI, PER, PHD, PLD, PLB, JSL and RTL do where a stack access leaves
page 1 in emulation mode, and PEI in the case of R66 that goes with it. -/
inductive EmuStackCross where
  | described   -- as R63 and R66 describe
  | refuse      -- the instruction is refused
deriving DecidableEq, Repr

/-- The open parameter `WdmMeaning` (R6, R113, D10): what opcode $42 does. -/
inductive WdmMeaning where
  | twoByteNop   -- the default, as the source states for the present part
  | refuse       -- the opcode is refused, for proofs that are to hold of a future part
deriving DecidableEq, Repr

/-- The events that enter the interrupt sequence (R200, R203). -/
inductive Interrupt where
  | cop | abort | nmi | irq
deriving DecidableEq, Repr

/-- The machine's state. The first group is the spec's eleven components (R20), the second its pending interrupts (R37, R202)
and memory (R50), the third the spec's open parameters (R6), the fourth the model's own. -/
@[ext]
structure State where
  /-- A, the accumulator: AH : AL (R21). -/
  a : Word
  /-- X, an index register: XH : XL (R22). -/
  x : Word
  /-- Y, an index register: YH : YL (R22). -/
  y : Word
  /-- S, the stack pointer: SH : SL, the bank-0 offset of the next free stack byte (R23). -/
  sp : Word
  /-- D, the direct register: DH : DL (R24). -/
  d : Word
  /-- DB, the data bank register (R25). -/
  db : Byte
  /-- PB, the program bank register (R25). -/
  pb : Byte
  /-- PC, the program counter, an offset in bank PB (R26). -/
  pc : Word
  /-- P, the status register, bits N V M X D I Z C (R28). -/
  p : Byte
  /-- E, the emulation flag (R32). -/
  e : Bool
  /-- RunState (R36). -/
  runState : RunState
  /-- The latch for a pending NMI (R37). -/
  nmiPending : Bool
  /-- ABORT was asserted during the instruction before this boundary (R202, R207 line 2, R208). -/
  abortPending : Bool
  /-- Memory (R50) in its canonical form, `Memory.wf`: addresses rise, no entry equals what an unlisted address reads as. -/
  mem : List Host.Cell
  /-- The memory map (R6 `MemMap`): the first region that holds an address says its kind; in no region it is RAM. -/
  memMap : List Region
  /-- The inputs at the coming boundaries, the next one first (R6 `IntSchedule`); past the end no input is asserted. -/
  schedule : List Inputs
  /-- The value of bit 4 of the status byte COP pushes in emulation mode (R6 `CopEmuBit4`, R35, D15). -/
  copEmuBit4 : Bool
  /-- Whether the ABORT input is modelled (R6 `AbortModelled`, R208, D16). -/
  abortModelled : Bool
  /-- What the new-style stack accesses do outside page 1 (R6 `EmuStackCross`, R63, R66, D13). -/
  emuStackCross : EmuStackCross
  /-- What WDM does (R6 `WdmMeaning`, R113, D10). -/
  wdmMeaning : WdmMeaning
  /-- The model's: the bytes written to device addresses, oldest first (R56, R221 (c)). -/
  deviceOut : List Host.Cell
  /-- The model's: the instruction before this boundary was a REP or SEP that changed `P.I` (R207, D19). -/
  iJustChanged : Bool
  /-- The model's: the counter that the free values of Config are applied to. -/
  tick : Nat
deriving DecidableEq, Repr

/-- Why the machine can fault. The CPU itself has no fault (R201). -/
inductive Fault where
  /-- Raised by the step while Waiting with an empty schedule: no input will ever end the wait (R112, D12, U9: "stuck").
  Safe: the hardware waits for ever and changes nothing. -/
  | waitingForever
deriving DecidableEq, Repr

/-- Why the machine can refuse. -/
inductive Refusal where
  /-- Raised by an arm of `exec` for an instruction that has no meaning yet; no arm does. Safe. -/
  | notModelled (mnemonic : String)
  /-- Raised by the step for an opcode byte that is none of the 41: "opcode $xx is outside the specified subset"
  (R4, R87, D1, U2). Safe: the chip executes an instruction this spec does not have. -/
  | outsideSubset (opcode : Byte)
  /-- Raised by every instruction that stores, where one of its stores falls on a byte of its own encoding
  (R240, D20, U6: "a model refuses it"). Safe. -/
  | selfOverwrite
  /-- Raised by the step where ABORT is asserted while an interrupt sequence runs, so that no instruction is in progress;
  R208 gives ABORT no effect there (log entry 9). Safe. -/
  | abortOutsideInstruction
  /-- Raised by the step where ABORT is asserted and `abortModelled` is false (R6, D16, U7: "if a schedule asserts it in a model
  without it, `refuse`"). Safe. -/
  | abortNotModelled
  /-- Raised by PEA, PEI, PER, PHD, PLD, PLB, JSL and RTL where `emuStackCross` is `refuse` and the execution is one of the open
  cases of R63 and R66 (R6, D13, U4). Safe. -/
  | stackLeavesPageOne
  /-- Raised by WDM where `wdmMeaning` is `refuse` (R6, R113, D10, U1). Safe. -/
  | wdmReserved
deriving DecidableEq, Repr

/-- The machine right after reset (R44, R232): emulation mode, 8-bit registers, stack in page 1, IRQ masked, D, DB and PB zero,
PC the word at the reset vector `00:FFFC`. What R45 leaves unspecified has the values of log entry 2; the word at the vector
is that of log entry 1. The open parameters with a default in R6 or D16 have it; the others are log entries 3, 5 and 6. -/
def State.reset : State where
  a := 0x0000
  x := 0x0000
  y := 0x0000
  sp := 0x01FF
  d := 0x0000
  db := 0x00
  pb := 0x00
  pc := 0x8000
  p := 0x34
  e := true
  runState := .running
  nmiPending := false
  abortPending := false
  mem := []
  memMap := []
  schedule := []
  copEmuBit4 := true
  abortModelled := false
  emuStackCross := .described
  wdmMeaning := .twoByteNop
  deviceOut := []
  iJustChanged := false
  tick := 0

end Sys2Proof.Machine
end

