-- ==== Sys2Proof/Machine/Flags.lean ====
section
/-! DEFINITION. The flags of P and every flag computation of the spec (R28, R31, R34, R172, R173). -/

namespace Sys2Proof.Machine

/-- The eight flags of P (R28). -/
inductive Flag where
  | n | v | m | x | d | i | z | c
deriving DecidableEq, Repr

/-- The bit of P that holds a flag (R28). -/
def bitOf : Flag → Nat
  | .n => 7
  | .v => 6
  | .m => 5
  | .x => 4
  | .d => 3
  | .i => 2
  | .z => 1
  | .c => 0

/-- The byte with bit `k` set to `v`. -/
def withBit (p : Byte) (k : Nat) (v : Bool) : Byte :=
  if v then p ||| (1#8 <<< k) else p &&& ~~~(1#8 <<< k)

/-- A flag of a status byte. -/
def flagIn (p : Byte) (f : Flag) : Bool := p.getLsbD (bitOf f)

/-- The status byte with one flag written. -/
def setFlag (p : Byte) (f : Flag) (v : Bool) : Byte := withBit p (bitOf f) v

/-- A flag of the machine (R28). -/
def State.flag (s : State) (f : Flag) : Bool := flagIn s.p f

/-- `SetNZ8(v)` on a status byte (R31). -/
def setNZ8 (p : Byte) (v : Byte) : Byte := setFlag (setFlag p .n (v.getLsbD 7)) .z (decide (v = 0))

/-- `SetNZ16(v)` on a status byte (R31). -/
def setNZ16 (p : Byte) (v : Word) : Byte := setFlag (setFlag p .n (v.getLsbD 15)) .z (decide (v = 0))

/-- N and Z from an index register at its current width: 8 bits if `P.X` is 1, else 16 (R22, R145, R161). -/
def setNZIndex (p : Byte) (v : Word) : Byte := if flagIn p .x then setNZ8 p (loByte v) else setNZ16 p v

/-- Z of TSB and TRB: 1 if the accumulator and the old memory operand have no 1 bit in common (R172, R173). -/
def setTestZ (p : Byte) (acc old : Word) : Byte := setFlag p .z (decide (acc &&& old = 0))

/-- The high byte cleared: what `P.X = 1` does to an index register (R22). -/
def clearHi (w : Word) : Word := wordOf 0 (loByte w)

/-- `Normalize()`: `E = 1` forces M, X and SH; `P.X = 1` clears XH and YH (R34). -/
def State.normalize (s : State) : State :=
  let p := if s.e then setFlag (setFlag s.p .m true) .x true else s.p
  { s with
    p := p
    sp := if s.e then wordOf 0x01 (loByte s.sp) else s.sp
    x := if flagIn p .x then clearHi s.x else s.x
    y := if flagIn p .x then clearHi s.y else s.y }

end Sys2Proof.Machine
end

