-- ==== Sys2Proof/Machine/Memory.lean ====
section
/-! DEFINITION. Memory as a list of cells in one canonical form (spec R50, R53), and the memory map (R6, R57). -/

namespace Sys2Proof.Machine

/-- What an address that the list does not name reads as: $00, and $80 at `00:FFFD`, so that the reset vector `00:FFFC` holds
$8000 (DESIGN CHOICE, unsafe: log entry 1). -/
def blankByte (a : Nat) : Byte := if a = 0xFFFD then 0x80 else 0x00

/-- The byte stored at an address (R53). -/
def Memory.read : List Host.Cell → Nat → Byte
  | [], a => blankByte a
  | c :: m, a => if c.1 = a then c.2 else Memory.read m a

/-- A cell put in front of `m`, or nothing where it holds what an unlisted address reads as. -/
def Memory.consCell (a : Nat) (v : Byte) (m : List Host.Cell) : List Host.Cell :=
  if v = blankByte a then m else (a, v) :: m

/-- The memory with one byte stored; it keeps the canonical form (R53). -/
def Memory.write : List Host.Cell → Nat → Byte → List Host.Cell
  | [], a, v => Memory.consCell a v []
  | c :: m, a, v =>
    if a < c.1 then Memory.consCell a v (c :: m)
    else if a = c.1 then Memory.consCell a v m
    else c :: Memory.write m a v

/-- Every cell's address is above `lo`, addresses rise, lie in the 2^24 of the address space (R50), and no cell holds what an
unlisted address reads as. -/
def Memory.wfAbove : Option Nat → List Host.Cell → Bool
  | _, [] => true
  | lo, c :: m =>
    (match lo with | none => true | some l => decide (l < c.1)) &&
      (decide (c.1 < 2 ^ 24) && (decide (c.2 ≠ blankByte c.1) && Memory.wfAbove (some c.1) m))

/-- The canonical form of memory. -/
def Memory.wf (m : List Host.Cell) : Bool := Memory.wfAbove none m

/-- The old memory with those bytes of the new one that `lands` picks (U13: each byte "any value of {old, new}"). -/
def Memory.cut (lands : Nat → Bool) (old new : List Host.Cell) : List Host.Cell :=
  (old ++ new).foldl (fun m c => if lands c.1 then Memory.write m c.1 (Memory.read new c.1) else m) old

/-- What the memory map says an address is (R6 `MemMap`). -/
def State.kindAt (s : State) (a : Addr) : RegionKind :=
  match s.memMap.find? (fun r => decide (r.base ≤ a.toNat ∧ a.toNat < r.base + r.size)) with
  | some r => r.kind
  | none => .ram

end Sys2Proof.Machine
end

