-- ==== Sys2Proof/Machine/Ops.lean ====
section
/-! DEFINITION. The named operations over memory, the stack and the program counter (spec R10's primitives), the hazard of R240,
and TAKING AN EXCEPTION as one operation, `State.takeInterrupt` (R204, R205). There is no return from one beside it: the
instruction that returns, RTI, is outside the subset (R210, log entry 17). -/

namespace Sys2Proof.Machine

/-- The outcome of an instruction or a step. -/
abbrev Result := Host.Outcome State Fault Refusal

/-- One byte to be stored at an address. -/
abbrev Store := Addr × Byte

/-! ## Memory -/

/-- One byte read on the bus (R53, R57): the stored byte, or what the platform chooses where the address is no memory. -/
def State.busRead (s : State) (kind : AccessKind) (at_ : Addr) : Byte :=
  match s.kindAt at_ with
  | .ram => Memory.read s.mem at_.toNat
  | .rom => Memory.read s.mem at_.toNat
  | .device => Config.openByte s.tick kind at_.toNat
  | .nothing => Config.openByte s.tick kind at_.toNat

/-- `MemRead(addr, 1)` of an instruction (R53). -/
def State.readByte (s : State) (at_ : Addr) : Byte := s.busRead .data at_

/-- `MemWrite(addr, 1, v)` (R53, R57, U11). -/
def State.writeByte (s : State) (at_ : Addr) (v : Byte) : State :=
  match s.kindAt at_ with
  | .ram => { s with mem := Memory.write s.mem at_.toNat v }
  | .rom => s
  | .device => { s with deviceOut := s.deviceOut ++ [(at_.toNat, v)] }
  | .nothing => s

/-- The stores of an instruction, performed in the order of the list (R56, R70). -/
def State.storeAll (s : State) : List Store → State
  | [] => s
  | w :: ws => (s.writeByte w.1 w.2).storeAll ws

/-- `MemRead0(off, 2)`: a word of bank 0, low byte first, the offset wrapping in the bank (R52, R54). -/
def State.readWord0 (s : State) (off : Word) : Word :=
  wordOf (s.readByte (bank0 (off + 1))) (s.readByte (bank0 off))

/-- `MemRead0(off, 3)`: a long address of bank 0 (R52, R54). -/
def State.readLong0 (s : State) (off : Word) : Addr :=
  longAddr (s.readByte (bank0 (off + 2))) (s.readWord0 off)

/-- The word at a vector (R203). -/
def State.readVector (s : State) (off : Word) : Word :=
  wordOf (s.busRead .vector (bank0 (off + 1))) (s.busRead .vector (bank0 off))

/-! ## The instruction's own bytes -/

/-- The address of byte `k` of the instruction at `PB : PC`; the offset wraps in the bank (R27, R80). -/
def State.codeAddr (s : State) (k : Nat) : Addr := longAddr s.pb (s.pc + BitVec.ofNat 16 k)

/-- Byte `k` of the instruction at `PB : PC`, as `Fetch8()` reads it (R27, R73). -/
def State.codeByte (s : State) (k : Nat) : Byte := s.busRead .fetch (s.codeAddr k)

/-- The instruction at `PB : PC`, or the name it is rejected by (R11 (4), R27). -/
def State.fetch (s : State) : Except DecodeError Instr :=
  decode (s.codeByte 0) (s.codeByte 1) (s.codeByte 2) (s.codeByte 3)

/-- PC past the `n` bytes of the instruction, wrapping in the bank (R27). -/
def State.advance (s : State) (n : Nat) : State := { s with pc := s.pc + BitVec.ofNat 16 n }

/-- The addresses of the `n` bytes of the instruction at `PB : PC`. -/
def State.ownBytes (s : State) (n : Nat) : List Addr := (List.range n).map s.codeAddr

/-- Some store of the instruction falls on a byte of its own encoding (R240). -/
def State.hitsOwn (s : State) (n : Nat) (ws : List Store) : Bool := ws.any (fun w => decide (w.1 ∈ s.ownBytes n))

/-- The end of an instruction of `n` bytes at `s` that performs the stores `ws`: the state `t`, unless a store hits the
instruction's own bytes, which is refused (R240, D20; log entry 13). -/
def State.finish (s : State) (n : Nat) (ws : List Store) (t : State) : Result :=
  if s.hitsOwn n ws then .refused .selfOverwrite else .next t

/-! ## The stack -/

/-- S after one ordinary byte push: in emulation mode only SL moves (R61). -/
def ordDown (e : Bool) (sp : Word) : Word := if e then setLo sp (loByte sp - 1) else sp - 1

/-- S after the increment of one ordinary byte pull (R61). -/
def ordUp (e : Bool) (sp : Word) : Word := if e then setLo sp (loByte sp + 1) else sp + 1

/-- S after one byte push of an instruction new to the 65816: all 16 bits move (R63). -/
def newDown (sp : Word) : Word := sp - 1

/-- S after the increment of one byte pull of an instruction new to the 65816 (R63). -/
def newUp (sp : Word) : Word := sp + 1

/-- `EndN()`: in emulation mode SH is $01 again (R63). -/
def endN (e : Bool) (sp : Word) : Word := if e then wordOf 0x01 (loByte sp) else sp

/-- The stores of pushing bytes, the first of the list first: store at `00 : S`, then decrement (R23, R61, R63). -/
def pushStores (down : Word → Word) : Word → List Byte → List Store
  | _, [] => []
  | sp, b :: bs => (bank0 sp, b) :: pushStores down (down sp) bs

/-- S after pushing those bytes, or after moving it once for each. -/
def pushedSp (down : Word → Word) : Word → List Byte → Word
  | sp, [] => sp
  | sp, _ :: bs => pushedSp down (down sp) bs

/-- The bytes of a word in the order they are pushed: high byte first (R62). -/
def pushOrder (w : Word) : List Byte := [hiByte w, loByte w]

/-- The stores of ordinary pushes (R61, R62). -/
def State.ordStores (s : State) (bs : List Byte) : List Store := pushStores (ordDown s.e) s.sp bs

/-- Ordinary pushes: `Push8`, `Push16` (R61, R62). -/
def State.pushOrd (s : State) (bs : List Byte) : State :=
  { s.storeAll (s.ordStores bs) with sp := pushedSp (ordDown s.e) s.sp bs }

/-- Some of the `n` byte pushes of a new-style push is an access outside page 1, in emulation mode: SL wraps from $00 to $FF
before the last of them (R63). -/
def State.pushCrosses (s : State) (n : Nat) : Bool := s.e && decide ((loByte s.sp).toNat + 1 < n)

/-- Some of the `n` byte pulls of a new-style pull is an access outside page 1, in emulation mode: SL wraps from $FF to $00
(R63). -/
def State.pullCrosses (s : State) (n : Nat) : Bool := s.e && decide (0xFF < (loByte s.sp).toNat + n)

/-- The outcome `r` of an execution that is one of the open cases of R63 and R66 where `crosses` says so: there the open
parameter `EmuStackCross` decides between `r` and refusal (D13; log entry 6). -/
def State.unlessCrossing (s : State) (crosses : Bool) (r : Result) : Result :=
  if crosses && decide (s.emuStackCross = .refuse) then .refused .stackLeavesPageOne else r

/-- The stores of the pushes of the instructions new to the 65816 (R63). -/
def State.newStores (s : State) (bs : List Byte) : List Store := pushStores newDown s.sp bs

/-- `PushN8`, `PushN16` and the `EndN()` that follows them (R63; where the accesses leave page 1 in emulation mode this is
`EmuStackCross` "as described", which the instructions guard by `unlessCrossing`: log entry 6). -/
def State.pushNew (s : State) (bs : List Byte) : State :=
  { s.storeAll (s.newStores bs) with sp := endN s.e (pushedSp newDown s.sp bs) }

/-- One byte pulled: increment S, then load from `00 : S` (R23, R61, R63). -/
def State.pull8 (s : State) (up : Word → Word) : Byte × State := (s.readByte (bank0 (up s.sp)), { s with sp := up s.sp })

/-- One word pulled, low byte first (R62, R63). -/
def State.pull16 (s : State) (up : Word → Word) : Word × State :=
  let lo := s.pull8 up
  let hi := lo.2.pull8 up
  (wordOf hi.1 lo.1, hi.2)

/-- The state with `EndN()` applied (R63). -/
def State.endPull (s : State) : State := { s with sp := endN s.e s.sp }

/-! ## Taking an exception -/

/-- The vector of an event, by the mode at its time (R203). -/
def vectorOf (k : Interrupt) (e : Bool) : Word :=
  match k, e with
  | .cop, false => 0xFFE4
  | .cop, true => 0xFFF4
  | .abort, false => 0xFFE8
  | .abort, true => 0xFFF8
  | .nmi, false => 0xFFEA
  | .nmi, true => 0xFFFA
  | .irq, false => 0xFFEE
  | .irq, true => 0xFFFE

/-- The status byte an interrupt pushes: P in native mode, `P[7:6] : 1 : bit4 : P[3:0]` in emulation mode (R204, R205, R35). -/
def State.pushedStatus (s : State) (bit4 : Bool) : Byte := if s.e then withBit (withBit s.p 5 true) 4 bit4 else s.p

/-- The bytes an interrupt pushes, in order: PB in native mode only, the return address high byte first, the status (R204). -/
def State.interruptFrame (s : State) (ra : Word) (bit4 : Bool) : List Byte :=
  if s.e then [hiByte ra, loByte ra, s.pushedStatus bit4] else [s.pb, hiByte ra, loByte ra, s.pushedStatus bit4]

/-- `raise Interrupt(k)` with return address `ra`: the frame is pushed with the ordinary pushes, then I is set, D cleared, PB
cleared and PC loaded from the vector, all after the frame is in memory (R204, R205). -/
def State.takeInterrupt (s : State) (k : Interrupt) (ra : Word) (bit4 : Bool) : State :=
  let t := s.pushOrd (s.interruptFrame ra bit4)
  { t with p := setFlag (setFlag s.p .i true) .d false, pb := 0, pc := t.readVector (vectorOf k s.e) }

end Sys2Proof.Machine
end

