-- ==== Sys2Proof/Machine/Operands.lean ====
section
/-! DEFINITION. Every operand form of the spec: the effective addresses of R64 to R69 and R84, and the memory operand of
R170 at the width of `P.M`. -/

namespace Sys2Proof.Machine

/-- The addresses of a memory operand: its low byte, and its high byte where the operand is a word (R170 (b)). -/
structure Operand where
  lo : Addr
  hi : Addr
deriving DecidableEq, Repr

/-- `DirAddr(off)` of STZ, TSB and TRB: in emulation mode with a page-aligned D the sum wraps in the direct page, else in
bank 0 (R65). `off` is the unsigned sum of the operand byte and, in the indexed mode, X. -/
def State.dirAddr (s : State) (off : Nat) : Word :=
  if s.e && decide (loByte s.d = 0) then wordOf (hiByte s.d) (BitVec.ofNat 8 off) else s.d + BitVec.ofNat 16 off

/-- `DirAddrN(off)` of PEI: no page wrap in any mode (R66). -/
def State.dirAddrNew (s : State) (off : Nat) : Word := s.d + BitVec.ofNat 16 off

/-- The one pointer read of PEI where R65 and R66 differ, which `EmuStackCross` decides: `E = 1`, `DL = $00`, `dd = $FF` (R66,
D13; log entry 6). -/
def State.dirAddrOpen (s : State) (dp : Byte) : Bool := s.e && decide (loByte s.d = 0 ∧ dp = 0xFF)

/-- Absolute: `DB : aaaa`, the second byte at the next of the 2^24 addresses (R67, R170 (b)). -/
def State.absolute (s : State) (abs : Word) : Operand :=
  { lo := longAddr s.db abs, hi := longAddr s.db abs + 1 }

/-- Absolute,X: the index is added on 24 bits (R68, R170 (b)). -/
def State.absoluteX (s : State) (abs : Word) : Operand :=
  { lo := longAddr s.db abs + s.x.setWidth 24, hi := longAddr s.db abs + s.x.setWidth 24 + 1 }

/-- Direct Page (R65, R170 (b)). -/
def State.directPage (s : State) (dp : Byte) : Operand :=
  { lo := bank0 (s.dirAddr dp.toNat), hi := bank0 (s.dirAddr (dp.toNat + 1)) }

/-- Direct Page,X (R65, R170 (b)). -/
def State.directPageX (s : State) (dp : Byte) : Operand :=
  { lo := bank0 (s.dirAddr (dp.toNat + s.x.toNat)), hi := bank0 (s.dirAddr (dp.toNat + s.x.toNat + 1)) }

/-- The target of a relative form of `n` bytes: the displacement added to the address of the next instruction, wrapping in the
program bank (R84). -/
def State.relTarget (s : State) (n : Nat) (r : Int) : Word := s.pc + BitVec.ofNat 16 n + BitVec.ofInt 16 r

/-- `ReadOp()`: the memory operand at the width of `P.M`, a byte extended with zeros (R170). -/
def State.readOp (s : State) (o : Operand) : Word :=
  if s.flag .m then wordOf 0 (s.readByte o.lo) else wordOf (s.readByte o.hi) (s.readByte o.lo)

/-- The accumulator at the width of `P.M`: AL extended with zeros, or A (R172, R173). -/
def State.accOp (s : State) : Word := if s.flag .m then wordOf 0 (loByte s.a) else s.a

/-- The stores of STZ: one byte, or two with the low byte first (R56, R171). -/
def State.zeroStores (s : State) (o : Operand) : List Store := if s.flag .m then [(o.lo, 0)] else [(o.lo, 0), (o.hi, 0)]

/-- The stores of TSB and TRB: one byte, or two with the high byte first (R56, R172, R173). -/
def State.rmwStores (s : State) (o : Operand) (v : Word) : List Store :=
  if s.flag .m then [(o.lo, loByte v)] else [(o.hi, hiByte v), (o.lo, loByte v)]

end Sys2Proof.Machine
end

