-- ==== Sys2Proof/Machine/BlockMove.lean ====
section
/-! DEFINITION. MVN and MVP, one byte a step (spec 42_block_move.md, R120 to R124). -/

namespace Sys2Proof.Machine

/-- An index register moved by `dir`: on XL alone where `P.X` is 1, else on 16 bits (R122). -/
def stepIndex (x8 : Bool) (dir v : Word) : Word := if x8 then setLo v (loByte v + loByte dir) else v + dir

/-- The store of one iteration: the byte at `src : X` to `dst : Y` (R122). -/
def State.moveStores (s : State) (dst src : Byte) : List Store := [(longAddr dst s.y, s.readByte (longAddr src s.x))]

/-- One iteration of a block move in direction `dir`; while bytes are left, PC stays at the instruction (R122). -/
def State.blockStep (s : State) (dir : Word) (dst src : Byte) : Result :=
  s.finish 3 (s.moveStores dst src)
    { s.storeAll (s.moveStores dst src) with
      db := dst
      x := stepIndex (s.flag .x) dir s.x
      y := stepIndex (s.flag .x) dir s.y
      a := s.a - 1
      pc := if s.a = 0 then s.pc + 3 else s.pc }

/-- MVN: upwards (R123). -/
def execMvn (dstbank srcbank : Byte) (s : State) : Result := s.blockStep 1 dstbank srcbank

/-- MVP: downwards (R124). -/
def execMvp (dstbank srcbank : Byte) (s : State) : Result := s.blockStep (-1) dstbank srcbank

end Sys2Proof.Machine
end

