-- ==== Sys2Proof/Machine/ControlTransfer.lean ====
section
/-! DEFINITION. BRL, JML, JSL, RTL and BRA (spec 40_control_transfer.md, R100 to R105). -/

namespace Sys2Proof.Machine

/-- BRL (R101, R84). -/
def execBrl (rel16 : Int) (s : State) : Result := .next { s with pc := s.relTarget 3 rel16 }

/-- BRA (R105, R84). -/
def execBra (rel8 : Int) (s : State) : Result := .next { s with pc := s.relTarget 2 rel8 }

/-- JML: the long address at `00:aaaa` goes to PB and PC (R102, R69). -/
def execJml (abs : Word) (s : State) : Result :=
  let t := s.readLong0 abs
  .next { s with pc := offsetOf t, pb := bankOf t }

/-- JSL: PB and the offset of the instruction's last byte are pushed (R103, R63). -/
def execJsl (long : Addr) (s : State) : Result :=
  let frame := s.pb :: pushOrder (s.pc + 3)
  s.unlessCrossing (s.pushCrosses 3)
    (s.finish 4 (s.newStores frame) { s.pushNew frame with pc := offsetOf long, pb := bankOf long })

/-- RTL: the word pulled plus one goes to PC, the byte above it to PB (R104, R63). -/
def execRtl (s : State) : Result :=
  let w := s.pull16 newUp
  let b := w.2.pull8 newUp
  s.unlessCrossing (s.pullCrosses 3) (.next { b.2.endPull with pc := w.1 + 1, pb := b.1 })

end Sys2Proof.Machine
end

