-- ==== Sys2Proof/Machine/MemoryBits.lean ====
section
/-! DEFINITION. STZ, TSB and TRB (spec 46_memory_store_bit.md, R170 to R173). -/

namespace Sys2Proof.Machine

/-- STZ of `n` bytes on an operand (R171). -/
def State.storeZero (s : State) (n : Nat) (o : Operand) : Result :=
  s.finish n (s.zeroStores o) ((s.advance n).storeAll (s.zeroStores o))

/-- TSB or TRB of `n` bytes on an operand: Z tests the accumulator against the old operand, `f` makes the new one from the old
one and the accumulator (R172, R173). -/
def State.testAndWrite (s : State) (n : Nat) (o : Operand) (f : Word → Word → Word) : Result :=
  let ws := s.rmwStores o (f (s.readOp o) s.accOp)
  s.finish n ws (({ s.advance n with p := setTestZ s.p s.accOp (s.readOp o) } : State).storeAll ws)

/-- The bits of the accumulator set in the operand (R172). -/
def setBits (w acc : Word) : Word := w ||| acc

/-- The bits of the accumulator cleared in the operand (R173). -/
def resetBits (w acc : Word) : Word := w &&& ~~~acc

/-- STZ absolute (R171, R67). -/
def execStzAbs (abs : Word) (s : State) : Result := s.storeZero 3 (s.absolute abs)

/-- STZ absolute,X (R171, R68). -/
def execStzAbsX (abs : Word) (s : State) : Result := s.storeZero 3 (s.absoluteX abs)

/-- STZ direct page (R171, R65). -/
def execStzDp (dp : Byte) (s : State) : Result := s.storeZero 2 (s.directPage dp)

/-- STZ direct page,X (R171, R65). -/
def execStzDpX (dp : Byte) (s : State) : Result := s.storeZero 2 (s.directPageX dp)

/-- TSB absolute (R172, R67). -/
def execTsbAbs (abs : Word) (s : State) : Result := s.testAndWrite 3 (s.absolute abs) setBits

/-- TSB direct page (R172, R65). -/
def execTsbDp (dp : Byte) (s : State) : Result := s.testAndWrite 2 (s.directPage dp) setBits

/-- TRB absolute (R173, R67). -/
def execTrbAbs (abs : Word) (s : State) : Result := s.testAndWrite 3 (s.absolute abs) resetBits

/-- TRB direct page (R173, R65). -/
def execTrbDp (dp : Byte) (s : State) : Result := s.testAndWrite 2 (s.directPage dp) resetBits

end Sys2Proof.Machine
end

