-- ==== Sys2Proof/Machine/Transfer.lean ====
section
/-! DEFINITION. XBA, TCD, TCS, TDC, TSC, TXY and TYX (spec 44_transfer_exchange.md, R140 to R146). -/

namespace Sys2Proof.Machine

/-- XBA: AH and AL change places; N and Z from the new AL (R140). -/
def execXba (s : State) : Result :=
  .next { s.advance 1 with a := wordOf (loByte s.a) (hiByte s.a), p := setNZ8 s.p (hiByte s.a) }

/-- TCD (R141). -/
def execTcd (s : State) : Result := .next { s.advance 1 with d := s.a, p := setNZ16 s.p s.a }

/-- TCS: no flag; in emulation mode SH stays $01 (R142). -/
def execTcs (s : State) : Result := .next { s.advance 1 with sp := if s.e then wordOf 0x01 (loByte s.a) else s.a }

/-- TDC (R143). -/
def execTdc (s : State) : Result := .next { s.advance 1 with a := s.d, p := setNZ16 s.p s.d }

/-- TSC (R144). -/
def execTsc (s : State) : Result := .next { s.advance 1 with a := s.sp, p := setNZ16 s.p s.sp }

/-- What an index register holds after it is given `v`: where `P.X` is 1 only its low byte (R145, R146, R161, R162). -/
def State.intoIndex (s : State) (old v : Word) : Word := if s.flag .x then setLo old (loByte v) else v

/-- TXY (R145). -/
def execTxy (s : State) : Result := .next { s.advance 1 with y := s.intoIndex s.y s.x, p := setNZIndex s.p s.x }

/-- TYX (R146). -/
def execTyx (s : State) : Result := .next { s.advance 1 with x := s.intoIndex s.x s.y, p := setNZIndex s.p s.y }

end Sys2Proof.Machine
end

