-- ==== Sys2Proof/Machine/Stack.lean ====
section
/-! DEFINITION. PEA, PEI, PER, PHB, PHD, PHK, PHX, PHY, PLB, PLD, PLX and PLY (spec 45_stack.md, R150 to R162). -/

namespace Sys2Proof.Machine

/-- An instruction of `n` bytes that pushes with the ordinary pushes (R61, R150 (e)). -/
def State.pushOrdOp (s : State) (n : Nat) (bs : List Byte) : Result :=
  s.finish n (s.ordStores bs) ((s.advance n).pushOrd bs)

/-- An instruction of `n` bytes that pushes with the new pushes (R63, R150 (e), D13). -/
def State.pushNewOp (s : State) (n : Nat) (bs : List Byte) : Result :=
  s.unlessCrossing (s.pushCrosses bs.length) (s.finish n (s.newStores bs) ((s.advance n).pushNew bs))

/-- The bytes of an index register in push order, at its current width (R157, R158). -/
def State.indexBytes (s : State) (v : Word) : List Byte := if s.flag .x then [loByte v] else pushOrder v

/-- The value an index register pulls, at its current width, and the state with S moved (R161, R162). -/
def State.pullIndex (s : State) : Word × State :=
  if s.flag .x then
    let r := s.pull8 (ordUp s.e)
    (wordOf 0 r.1, r.2)
  else s.pull16 (ordUp s.e)

/-- PEA (R151). -/
def execPea (imm16 : Word) (s : State) : Result := s.pushNewOp 3 (pushOrder imm16)

/-- PEI: the word at direct-page location `dp` is pushed (R152, R66, D13). -/
def execPei (dp : Byte) (s : State) : Result :=
  s.unlessCrossing (s.dirAddrOpen dp) (s.pushNewOp 2 (pushOrder (s.readWord0 (s.dirAddrNew dp.toNat))))

/-- PER: the relative target is pushed (R153, R84). -/
def execPer (rel16 : Int) (s : State) : Result := s.pushNewOp 3 (pushOrder (s.relTarget 3 rel16))

/-- PHB (R154). -/
def execPhb (s : State) : Result := s.pushOrdOp 1 [s.db]

/-- PHD (R155). -/
def execPhd (s : State) : Result := s.pushNewOp 1 (pushOrder s.d)

/-- PHK (R156). -/
def execPhk (s : State) : Result := s.pushOrdOp 1 [s.pb]

/-- PHX (R157). -/
def execPhx (s : State) : Result := s.pushOrdOp 1 (s.indexBytes s.x)

/-- PHY (R158). -/
def execPhy (s : State) : Result := s.pushOrdOp 1 (s.indexBytes s.y)

/-- PLB (R159, R63). -/
def execPlb (s : State) : Result :=
  let r := (s.advance 1).pull8 newUp
  s.unlessCrossing (s.pullCrosses 1) (.next { r.2.endPull with db := r.1, p := setNZ8 s.p r.1 })

/-- PLD (R160, R63). -/
def execPld (s : State) : Result :=
  let r := (s.advance 1).pull16 newUp
  s.unlessCrossing (s.pullCrosses 2) (.next { r.2.endPull with d := r.1, p := setNZ16 s.p r.1 })

/-- PLX (R161). -/
def execPlx (s : State) : Result :=
  let r := (s.advance 1).pullIndex
  .next { r.2 with x := s.intoIndex s.x r.1, p := setNZIndex s.p r.1 }

/-- PLY (R162). -/
def execPly (s : State) : Result :=
  let r := (s.advance 1).pullIndex
  .next { r.2 with y := s.intoIndex s.y r.1, p := setNZIndex s.p r.1 }

end Sys2Proof.Machine
end

