-- ==== Sys2Proof/Machine/StatusMode.lean ====
section
/-! DEFINITION. REP, SEP and XCE (spec 43_status_mode.md, R130 to R132). -/

namespace Sys2Proof.Machine

/-- P replaced by `p`, normalised, and the change of `P.I` kept for the mask test at the next boundary (R130, R131, R207). -/
def State.writeStatus (s : State) (p : Byte) : State :=
  { ({ s with p := p } : State).normalize with iJustChanged := flagIn p .i != s.flag .i }

/-- REP: the flags of the mask are cleared (R130). -/
def execRep (imm8 : Byte) (s : State) : Result := .next ((s.advance 2).writeStatus (s.p &&& ~~~imm8))

/-- SEP: the flags of the mask are set (R131). -/
def execSep (imm8 : Byte) (s : State) : Result := .next ((s.advance 2).writeStatus (s.p ||| imm8))

/-- XCE: C and E change places (R132). -/
def execXce (s : State) : Result :=
  .next ({ s.advance 1 with p := setFlag s.p .c s.e, e := s.flag .c } : State).normalize

end Sys2Proof.Machine
end

