-- ==== Sys2Proof/Machine/System.lean ====
section
/-! DEFINITION. COP, STP, WAI and WDM (spec 41_system.md, R110 to R113). -/

namespace Sys2Proof.Machine

/-- COP: the signature byte is skipped and the interrupt sequence entered with the address of the next instruction
(R110, R201, R204). -/
def execCop (_imm8 : Byte) (s : State) : Result :=
  let ra := s.pc + 2
  s.finish 2 (s.ordStores (s.interruptFrame ra s.copEmuBit4)) ((s.advance 2).takeInterrupt .cop ra s.copEmuBit4)

/-- STP (R111). -/
def execStp (s : State) : Result := .next { s.advance 1 with runState := .stopped }

/-- WAI (R112). -/
def execWai (s : State) : Result := .next { s.advance 1 with runState := .waiting }

/-- WDM: the operand byte is skipped, or the opcode is refused, as the open parameter `WdmMeaning` says (R113, D10; log entry 8). -/
def execWdm (_imm8 : Byte) (s : State) : Result :=
  match s.wdmMeaning with
  | .twoByteNop => .next (s.advance 2)
  | .refuse => .refused .wdmReserved

end Sys2Proof.Machine
end

