-- ==== Sys2Proof/Machine/Dispatch.lean ====
section
/-! DEFINITION. The dispatch: one arm per instruction (spec R85), each one call of its meaning. -/

namespace Sys2Proof.Machine

/-- The effect of an instruction at the state whose `PB : PC` is the address of its opcode byte. -/
def exec (i : Instr) (s : State) : Host.Outcome State Fault Refusal :=
  match i with
  | .cop imm8 => Sys2Proof.Machine.execCop imm8 s
  | .tsbDp dp => Sys2Proof.Machine.execTsbDp dp s
  | .phd => Sys2Proof.Machine.execPhd s
  | .tsbAbs abs => Sys2Proof.Machine.execTsbAbs abs s
  | .trbDp dp => Sys2Proof.Machine.execTrbDp dp s
  | .tcs => Sys2Proof.Machine.execTcs s
  | .trbAbs abs => Sys2Proof.Machine.execTrbAbs abs s
  | .jsl long => Sys2Proof.Machine.execJsl long s
  | .pld => Sys2Proof.Machine.execPld s
  | .tsc => Sys2Proof.Machine.execTsc s
  | .wdm imm8 => Sys2Proof.Machine.execWdm imm8 s
  | .mvp dstbank srcbank => Sys2Proof.Machine.execMvp dstbank srcbank s
  | .phk => Sys2Proof.Machine.execPhk s
  | .mvn dstbank srcbank => Sys2Proof.Machine.execMvn dstbank srcbank s
  | .phy => Sys2Proof.Machine.execPhy s
  | .tcd => Sys2Proof.Machine.execTcd s
  | .per rel16 => Sys2Proof.Machine.execPer rel16 s
  | .stzDp dp => Sys2Proof.Machine.execStzDp dp s
  | .rtl => Sys2Proof.Machine.execRtl s
  | .stzDpX dp => Sys2Proof.Machine.execStzDpX dp s
  | .ply => Sys2Proof.Machine.execPly s
  | .tdc => Sys2Proof.Machine.execTdc s
  | .bra rel8 => Sys2Proof.Machine.execBra rel8 s
  | .brl rel16 => Sys2Proof.Machine.execBrl rel16 s
  | .phb => Sys2Proof.Machine.execPhb s
  | .txy => Sys2Proof.Machine.execTxy s
  | .stzAbs abs => Sys2Proof.Machine.execStzAbs abs s
  | .stzAbsX abs => Sys2Proof.Machine.execStzAbsX abs s
  | .plb => Sys2Proof.Machine.execPlb s
  | .tyx => Sys2Proof.Machine.execTyx s
  | .rep imm8 => Sys2Proof.Machine.execRep imm8 s
  | .wai => Sys2Proof.Machine.execWai s
  | .pei dp => Sys2Proof.Machine.execPei dp s
  | .phx => Sys2Proof.Machine.execPhx s
  | .stp => Sys2Proof.Machine.execStp s
  | .jml abs => Sys2Proof.Machine.execJml abs s
  | .sep imm8 => Sys2Proof.Machine.execSep imm8 s
  | .xba => Sys2Proof.Machine.execXba s
  | .pea imm16 => Sys2Proof.Machine.execPea imm16 s
  | .plx => Sys2Proof.Machine.execPlx s
  | .xce => Sys2Proof.Machine.execXce s

end Sys2Proof.Machine
end

