-- ==== Sys2Proof/Machine/Interrupts.lean ====
section
/-! DEFINITION. What an instruction boundary does (spec R11, R112, R207), the hardware interrupts (R205, R208) and the reset
sequence (R230). Step.lean puts them together with the instructions. -/

namespace Sys2Proof.Machine

/-- The inputs this boundary presents (R6 `IntSchedule`): the head of the schedule, or none asserted past its end. -/
def State.inputsNow (s : State) : Inputs := s.schedule.headD Inputs.quiet

/-- An NMI is pending at this boundary: latched before, or its edge has just arrived (R37, R202). -/
def State.nmiNow (s : State) : Bool := s.nmiPending || s.inputsNow.nmi

/-- The state a step works on: the boundary's inputs consumed, an NMI edge latched (while Stopped it is ignored: R111, log
entry 24), the change of `P.I` forgotten and the counter of the free values advanced. -/
def State.begun (s : State) : State :=
  { s with
    schedule := s.schedule.tail
    nmiPending := if s.runState = .stopped then s.nmiPending else s.nmiNow
    iJustChanged := false
    tick := s.tick + 1 }

/-- The mask test of IRQ: passed when `P.I` is 0; right after a REP or SEP that changed `P.I` the value before it may be the
one tested, and which of the two is left free (R207 line 4, D19; log entry 10). -/
def State.irqPasses (s : State) : Bool :=
  if s.iJustChanged && Config.irqSampledBefore s.tick then s.flag .i else !s.flag .i

/-- What a step does. -/
inductive Action where
  | stay                        -- nothing happens: Stopped, or Waiting with no input yet (R11 (1), (2))
  | stuck                       -- Waiting, and no input will ever come (D12)
  | reset                       -- R207 line 1
  | interrupt (k : Interrupt)   -- R207 lines 2 to 4
  | abortMisplaced              -- ABORT asserted while an interrupt sequence runs (log entry 9)
  | abortUnmodelled             -- ABORT asserted though `AbortModelled` is false (U7)
  | execute                     -- R207 line 5
deriving DecidableEq, Repr

/-- An ABORT of the instruction before this boundary is to be taken (R207 line 2: "only if AbortModelled"). -/
def State.abortDue (s : State) : Bool := s.abortModelled && s.abortPending

/-- An interrupt sequence at this boundary; an ABORT edge during it finds no instruction to abort (log entry 9). -/
def State.enter (s : State) (k : Interrupt) : Action := if s.inputsNow.abort then .abortMisplaced else .interrupt k

/-- The boundary rule, with the priority RESET, ABORT, NMI, IRQ (R207). -/
def State.boundary (s : State) : Action :=
  if s.inputsNow.reset then .reset
  else if s.abortDue then s.enter .abort
  else if s.nmiNow then s.enter .nmi
  else if s.inputsNow.irq && s.irqPasses then s.enter .irq
  else .execute

/-- What this step does, where an ABORT that is asserted is modelled: only reset leaves Stopped (R111); Waiting ends when an input
is asserted and then follows the boundary rule, an ABORT that ends the wait being the one to take (R112, R220, log entry 15). -/
def State.modelledAction (s : State) : Action :=
  match s.runState with
  | .stopped => if s.inputsNow.reset then .reset else .stay
  | .waiting =>
    if s.inputsNow.reset then .reset
    else if s.inputsNow.abort || s.abortDue then .interrupt .abort
    else if s.nmiNow || s.inputsNow.irq then s.boundary
    else if s.schedule = [] then .stuck
    else .stay
  | .running => s.boundary

/-- What this step does: an ABORT asserted in a model without it is refused (R6 `AbortModelled`, D16, U7; log entry 9). -/
def State.action (s : State) : Action :=
  if s.inputsNow.abort && !s.abortModelled then .abortUnmodelled else s.modelledAction

/-- `raise Interrupt(k)` for NMI, IRQ and ABORT: the shared sequence with PC as the return address, which is the aborted
instruction's after an ABORT (R208) and the address after the WAI at the end of a wait (R112, R220), and with bit 4 of the status
byte 0 in emulation mode; the latch of the event taken is cleared and the machine runs (R205). -/
def State.hardwareInterrupt (s : State) (k : Interrupt) : State :=
  { s.takeInterrupt k s.pc false with
    nmiPending := if k = .nmi then false else s.nmiPending
    abortPending := if k = .abort then false else s.abortPending
    runState := .running }

/-- P after reset: M, X and I set, D cleared, N, V, Z and C as in `keep` (R44, R230). -/
def resetP (keep : Byte) : Byte :=
  setFlag (setFlag (setFlag (setFlag keep .m true) .x true) .d false) .i true

/-- The reset sequence (R230); S keeps no value that software can rely on in SL, which is left free (R45, log entry 11). -/
def State.resetEntry (s : State) : State :=
  { s with
    e := true
    p := resetP s.p
    x := clearHi s.x
    y := clearHi s.y
    sp := wordOf 0x01 (Config.resetByte s.tick .sl)
    d := 0
    db := 0
    pb := 0
    nmiPending := false
    abortPending := false
    runState := .running
    pc := s.readVector 0xFFFC }

/-- A reset that cuts a step short: `s` is the state at its start, `t` the one it would have led to. Each byte of memory it
might have written holds the old or the new value, some of its device writes were performed, and what reset does not
initialise is left free (R230, U13; log entry 12). -/
def State.cutReset (s t : State) : State :=
  let w := (t.deviceOut.drop s.deviceOut.length).take (Config.cutDeviceWrites s.tick)
  ({ s with
    mem := Memory.cut (Config.cutWriteLands s.tick) s.mem t.mem
    deviceOut := s.deviceOut ++ w
    a := wordOf (Config.resetByte s.tick .ah) (Config.resetByte s.tick .al)
    x := wordOf 0 (Config.resetByte s.tick .xl)
    y := wordOf 0 (Config.resetByte s.tick .yl)
    p := Config.resetByte s.tick .flags } : State).resetEntry

/-- The instruction at `s` was aborted and would have led to `t`: its memory writes stand, its changes to the registers are
discarded, and the ABORT is pending at the next boundary (R208; log entry 9). -/
def State.discardRegisters (s t : State) : State := { s with mem := t.mem, deviceOut := t.deviceOut, abortPending := true }

end Sys2Proof.Machine
end

