-- ==== Sys2Proof/Machine/Step.lean ====
section
/-! DEFINITION. One step of the machine (spec R11), and the placing of an instruction where the next step fetches it. -/

namespace Sys2Proof.Machine

/-- The instruction at `PB : PC`, executed; `aborted` says that ABORT is asserted during it (R11 (4), R208). -/
def State.runInstruction (s : State) (aborted : Bool) : Result :=
  match s.fetch with
  | .error (.outsideSubset op) => .refused (.outsideSubset op)
  | .ok i =>
    match exec i s with
    | .next t => if aborted then .next (s.discardRegisters t) else .next t
    | .fault r => .fault r
    | .refused r => .refused r

/-- The step, were it not cut short by a reset. -/
def State.perform (s : State) : Result :=
  match s.action with
  | .stay => .next s.begun
  | .stuck => .fault .waitingForever
  | .reset => .next s.begun.resetEntry
  | .interrupt k => .next (s.begun.hardwareInterrupt k)
  | .abortMisplaced => .refused .abortOutsideInstruction
  | .abortUnmodelled => .refused .abortNotModelled
  | .execute => ({ s.begun with runState := .running } : State).runInstruction s.inputsNow.abort

/-- One step of the machine (R11): what the boundary decides (R207), unless a reset cuts it short (R230). -/
def step (s : State) : Host.Outcome State Fault Refusal :=
  match s.perform with
  | .next t => if s.inputsNow.resetDuring then .next (s.begun.cutReset t) else .next t
  | .fault r => .fault r
  | .refused r => .refused r

/-- The regions of a memory map that hold bytes. -/
def storingRegions (m : List Region) : List Region := m.filter (fun r => decide (r.kind = .ram ∨ r.kind = .rom))

/-- `s` with the instruction whose bits are `w`, the bits above the low `nbits` zero, stored at `PB : PC`, in a machine that
runs and has no input pending, so that the next step fetches and executes it (log entry 20). -/
def State.withFetchWord (s : State) (nbits w : Nat) : State :=
  { s with
    mem := ((tableBytes nbits w).zipIdx).foldl (fun m c => Memory.write m (s.codeAddr c.2).toNat c.1) s.mem
    memMap := storingRegions s.memMap
    schedule := []
    nmiPending := false
    abortPending := false
    runState := .running }

end Sys2Proof.Machine
end

