-- ==== Sys2Proof/Safety.lean ====
section
/-! DEFINITION. What the statements call a good state and a finished, a stuck or a safe run (spec R33, R111, R112, R221). -/

namespace Sys2Proof.Machine

/-- The invariants I1, I2 and I3 of R33: emulation mode has 8-bit widths and its stack in page 1; 8-bit index registers have
zero high bytes. -/
abbrev State.modesOk (s : State) : Prop :=
  (s.e = true → s.flag .m = true ∧ s.flag .x = true) ∧
    (s.e = true → hiByte s.sp = 0x01) ∧
    (s.flag .x = true → hiByte s.x = 0 ∧ hiByte s.y = 0)

/-- Memory has its canonical form: equal memories are equal data. -/
abbrev State.memOk (s : State) : Prop := Memory.wf s.mem = true

/-- The run has ended: the clock is stopped (R111, D11). -/
abbrev State.finished (s : State) : Prop := s.runState = .stopped

/-- The machine waits for an input that will never come (R112, D12). -/
abbrev State.isStuck (s : State) : Prop := s.runState = .waiting ∧ s.action = .stuck

/-- Every address of the instruction's stores lies outside its own bytes, so that R240 does not apply. -/
abbrev State.clearOfOwn (s : State) (n : Nat) (addrs : List Addr) : Prop := ∀ a ∈ addrs, a ∉ s.ownBytes n

/-- What a list of stores (to different addresses) does to memory and to the platform, from `s` to `t`: every other address reads
as before, in every kind of access; a store to RAM is there; a store to ROM or to nothing has no effect; the platform sees the
stores to devices, in order (R53, R56, R57, U11). -/
def State.afterStores (s t : State) (ws : List Store) : Prop :=
  (∀ k a, a ∉ ws.map Prod.fst → t.busRead k a = s.busRead k a) ∧
    (∀ w ∈ ws, s.kindAt w.1 = .ram → t.readByte w.1 = w.2) ∧
    (∀ k a, s.kindAt a ≠ .ram → t.busRead k a = s.busRead k a) ∧
    t.deviceOut = s.deviceOut ++ (ws.filter (fun w => decide (s.kindAt w.1 = .device))).map (fun w => (w.1.toNat, w.2))

/-- `n` steps from `s` end in a next state: no fault and no refusal. -/
def safeFor (n : Nat) (s : State) : Prop := ∃ t, Host.Core.run Sys2Proof.core n s = .next t

end Sys2Proof.Machine
end

