-- ==== Sys2Proof/Certificates/Slice0/Obligations.lean ====
section
/-! DEFINITION. The statements for the provers. Each docstring names the rules it formalises. The words the statements share stand
first, under `Sys2Proof.Claim`; they are written out from the spec and do not call the meanings. In every statement about an
instruction `t = { s with …, f := t.f, … }` is the frame: `t` differs from `s` in the named fields only.

Most rules of the spec carry a mark of general knowledge (GKn), which D22 adopts as the spec's own choice (log entry 18): N and Z
of R31 GK18; the modes of R33, R34 and the index width GK6, GK12; 16-bit transfers GK11; the stack of R61 GK27 and of R63 GK28; the
direct page of R65 GK13, GK29; the branch base GK32; the pushed PC of JSL GK35; block moves GK39; Z of TSB and TRB GK40;
interrupts GK20, GK36, GK41, GK43; reset GK21. Where a statement rests on a choice of the model, its docstring names the log entry.
The hypotheses `clearOfOwn` leave out the stores that R240 (GK46, D20) takes out of the spec; `EveryInstructionCompletes` says what
happens there (log entry 13). The hypothesis `memOk` is an invariant (`StepKeepsMemoryForm`). -/

namespace Sys2Proof.Claim

open Sys2Proof.Machine

/-- The 41 opcode bytes of R85. -/
def opcodes : List Byte :=
  [0x02, 0x04, 0x0B, 0x0C, 0x14, 0x1B, 0x1C, 0x22, 0x2B, 0x3B, 0x42, 0x44, 0x4B, 0x54, 0x5A, 0x5B, 0x62, 0x64, 0x6B, 0x74, 0x7A,
    0x7B, 0x80, 0x82, 0x8B, 0x9B, 0x9C, 0x9E, 0xAB, 0xBB, 0xC2, 0xCB, 0xD4, 0xDA, 0xDB, 0xDC, 0xE2, 0xEB, 0xF4, 0xFA, 0xFB]

/-- The opcode byte decodes to the instruction, whatever bytes follow it (a one-byte instruction). -/
def encodedAlone (op : Byte) (i : Instr) : Prop := ∀ b1 b2 b3, decode op b1 b2 b3 = .ok i

/-- P with N and Z from an 8-bit value (R31, R28). -/
def nz8 (p v : Byte) : Byte := (p &&& 0x7D) ||| (v &&& 0x80) ||| (if v = 0 then 0x02 else 0x00)

/-- P with N and Z from a 16-bit value (R31, R28). -/
def nz16 (p : Byte) (v : Word) : Byte := (p &&& 0x7D) ||| (hiByte v &&& 0x80) ||| (if v = 0 then 0x02 else 0x00)

/-- P with Z alone written (R172, R28). -/
def onlyZ (p : Byte) (z : Bool) : Byte := (p &&& 0xFD) ||| (if z then 0x02 else 0x00)

/-- S after `k` ordinary byte pushes: SL alone wraps in emulation mode (R61). -/
def downOrd (e : Bool) (sp : Word) (k : Nat) : Word :=
  if e then wordOf (hiByte sp) (loByte sp - BitVec.ofNat 8 k) else sp - BitVec.ofNat 16 k

/-- S after `k` ordinary byte pulls (R61). -/
def upOrd (e : Bool) (sp : Word) (k : Nat) : Word :=
  if e then wordOf (hiByte sp) (loByte sp + BitVec.ofNat 8 k) else sp + BitVec.ofNat 16 k

/-- S with SH forced to $01 in emulation mode: `EndN()` (R63). -/
def ended (e : Bool) (sp : Word) : Word := if e then wordOf 0x01 (loByte sp) else sp

/-- No access of a push of `k` bytes leaves page 1 in emulation mode, so that the rule of R63 is exact. -/
abbrev noPushCrossing (s : State) (k : Nat) : Prop := s.e = false ∨ k ≤ (loByte s.sp).toNat + 1

/-- No access of a pull of `k` bytes leaves page 1 in emulation mode, so that the rule of R63 is exact. -/
abbrev noPullCrossing (s : State) (k : Nat) : Prop := s.e = false ∨ (loByte s.sp).toNat + k ≤ 0xFF

/-- The word in bank 0 at an offset, as an instruction reads it: low byte first, the offset wrapping (R52, R54). -/
def word0 (s : State) (off : Word) : Word := wordOf (s.readByte (bank0 (off + 1))) (s.readByte (bank0 off))

/-- The new-style push of a word by an instruction of `n` bytes: high byte at S, low byte below it, S down by two with SH $01 in
emulation mode (R62, R63); nothing else changes. -/
def pushesWordNew (i : Instr) (n : Nat) (w : Word) (s : State) : Prop :=
  s.memOk → s.clearOfOwn n [bank0 s.sp, bank0 (s.sp - 1)] →
    ∃ t, exec i s = .next t ∧
      t = { s with pc := s.pc + BitVec.ofNat 16 n, sp := ended s.e (s.sp - 2), mem := t.mem, deviceOut := t.deviceOut } ∧
      s.afterStores t [(bank0 s.sp, hiByte w), (bank0 (s.sp - 1), loByte w)]

/-- What JSL does (R103). -/
def calls (target : Addr) (s : State) : Prop :=
  s.memOk → s.clearOfOwn 4 [bank0 s.sp, bank0 (s.sp - 1), bank0 (s.sp - 2)] →
    ∃ t, exec (.jsl target) s = .next t ∧
      t = { s with
        pc := target.extractLsb' 0 16
        pb := target.extractLsb' 16 8
        sp := ended s.e (s.sp - 3)
        mem := t.mem
        deviceOut := t.deviceOut } ∧
      s.afterStores t
        [(bank0 s.sp, s.pb), (bank0 (s.sp - 1), hiByte (s.pc + 3)), (bank0 (s.sp - 2), loByte (s.pc + 3))]

/-- What RTL does (R104). -/
def returns (s : State) : Prop :=
  exec .rtl s = .next { s with
    pc := word0 s (s.sp + 1) + 1
    pb := s.readByte (bank0 (s.sp + 3))
    sp := ended s.e (s.sp + 3) }

/-- What PLB does (R159). -/
def pullsDb (s : State) : Prop :=
  exec .plb s = .next { s with
    pc := s.pc + 1
    db := s.readByte (bank0 (s.sp + 1))
    sp := ended s.e (s.sp + 1)
    p := nz8 s.p (s.readByte (bank0 (s.sp + 1))) }

/-- What PLD does (R160). -/
def pullsD (s : State) : Prop :=
  exec .pld s = .next { s with
    pc := s.pc + 1
    d := word0 s (s.sp + 1)
    sp := ended s.e (s.sp + 2)
    p := nz16 s.p (word0 s (s.sp + 1)) }

/-- The frame an interrupt pushes: PB in native mode, the return address high byte first, the status byte, from S down with
the ordinary pushes (R204, R205). -/
def interruptStores (s : State) (ra : Word) (bit4 : Bool) : List Store :=
  if s.e then
    [(bank0 s.sp, hiByte ra), (bank0 (downOrd true s.sp 1), loByte ra),
      (bank0 (downOrd true s.sp 2), (s.p &&& 0xCF) ||| 0x20 ||| (if bit4 then 0x10 else 0x00))]
  else
    [(bank0 s.sp, s.pb), (bank0 (s.sp - 1), hiByte ra), (bank0 (s.sp - 2), loByte ra), (bank0 (s.sp - 3), s.p)]

/-- S after that frame: four bytes down in native mode, three in emulation mode (R204). -/
def interruptSp (s : State) : Word := if s.e then downOrd true s.sp 3 else s.sp - 4

/-- P after entry: I set, D cleared, nothing else (R204). -/
def interruptP (p : Byte) : Byte := (p &&& 0xF7) ||| 0x04

/-- `t` is `s` after a hardware interrupt with return address `ra` and the vectors `native` and `emulation`; the fields named
below and the latches `nmi` and `abort` are all that changed (R205). -/
def entersInterrupt (s t : State) (ra native emulation : Word) (nmi abort : Bool) : Prop :=
  t = { s with
    sp := interruptSp s
    p := interruptP s.p
    pb := 0
    pc := t.readVector (if s.e then emulation else native)
    runState := .running
    nmiPending := nmi
    abortPending := abort
    mem := t.mem
    deviceOut := t.deviceOut } ∧
  s.afterStores t (interruptStores s ra false)

/-- What every reset leaves, of the components it writes (R44, R230); `t.mem` and the rest are the statements'. -/
def resetValues (t : State) : Prop :=
  t.e = true ∧ t.flag .m = true ∧ t.flag .x = true ∧ t.flag .d = false ∧ t.flag .i = true ∧ hiByte t.sp = 0x01 ∧
    hiByte t.x = 0 ∧ hiByte t.y = 0 ∧ t.d = 0 ∧ t.db = 0 ∧ t.pb = 0 ∧ t.runState = .running ∧ t.nmiPending = false ∧
    t.pc = t.readVector 0xFFFC

/-- The addresses of a memory operand: one at 8-bit width, two at 16 bits (R170). -/
def operandAddrs (s : State) (lo hi : Addr) : List Addr := if s.flag .m then [lo] else [lo, hi]

/-- The direct-page location of R65: in emulation mode with DL = $00 the sum wraps in the page, else in bank 0. -/
def directAddr (s : State) (off : Nat) : Addr :=
  if s.e = true ∧ loByte s.d = 0 then bank0 (wordOf (hiByte s.d) (BitVec.ofNat 8 off)) else bank0 (s.d + BitVec.ofNat 16 off)

/-- The two bytes of the memory operand of STZ, TSB and TRB in each of their modes (R170 (b)); of no other instruction. -/
def memoryOperand (s : State) : Instr → Option (Addr × Addr)
  | .stzAbs abs | .tsbAbs abs | .trbAbs abs => some (longAddr s.db abs, longAddr s.db abs + 1)
  | .stzAbsX abs => some (longAddr s.db abs + s.x.setWidth 24, longAddr s.db abs + s.x.setWidth 24 + 1)
  | .stzDp dp | .tsbDp dp | .trbDp dp => some (directAddr s dp.toNat, directAddr s (dp.toNat + 1))
  | .stzDpX dp => some (directAddr s (dp.toNat + s.x.toNat), directAddr s (dp.toNat + s.x.toNat + 1))
  | _ => none

/-- Every address an instruction stores to at `s`, empty for one that stores nothing (R56, R61, R63, R122, R170, R204). -/
def storeAddrs (s : State) (i : Instr) : List Addr :=
  match memoryOperand s i with
  | some (lo, hi) => operandAddrs s lo hi
  | none =>
    match i with
    | .pea _ | .pei _ | .per _ | .phd => [bank0 s.sp, bank0 (s.sp - 1)]
    | .jsl _ => [bank0 s.sp, bank0 (s.sp - 1), bank0 (s.sp - 2)]
    | .phb | .phk => [bank0 s.sp]
    | .phx | .phy => if s.flag .x then [bank0 s.sp] else [bank0 s.sp, bank0 (downOrd s.e s.sp 1)]
    | .cop _ =>
      if s.e then [bank0 s.sp, bank0 (downOrd true s.sp 1), bank0 (downOrd true s.sp 2)]
      else [bank0 s.sp, bank0 (s.sp - 1), bank0 (s.sp - 2), bank0 (s.sp - 3)]
    | .mvn dst _ | .mvp dst _ => [longAddr dst s.y]
    | _ => []

/-- The executions that the open parameter `EmuStackCross` decides in emulation mode (R63, R66, D13): an access of a new-style push
or pull leaves page 1, or PEI reads at `DL = $00`, `dd = $FF`. -/
def crossesPageOne (s : State) (i : Instr) : Prop :=
  (((∃ w, i = .pea w) ∨ (∃ dp, i = .pei dp) ∨ (∃ r, i = .per r) ∨ i = .phd) ∧ (loByte s.sp).toNat + 1 < 2) ∨
    ((∃ target, i = .jsl target) ∧ (loByte s.sp).toNat + 1 < 3) ∨
    (i = .plb ∧ 0xFF < (loByte s.sp).toNat + 1) ∨
    (i = .pld ∧ 0xFF < (loByte s.sp).toNat + 2) ∨
    (i = .rtl ∧ 0xFF < (loByte s.sp).toNat + 3) ∨
    (i = .pei 0xFF ∧ loByte s.d = 0)

/-- The open parameter `WdmMeaning` or `EmuStackCross` has the value "refuse" and refuses this execution as `r` (R6, D10, D13). -/
def refusedByParameter (s : State) (i : Instr) (r : Refusal) : Prop :=
  (s.wdmMeaning = .refuse ∧ (∃ b, i = .wdm b) ∧ r = .wdmReserved) ∨
    (s.emuStackCross = .refuse ∧ s.e = true ∧ crossesPageOne s i ∧ r = .stackLeavesPageOne)

/-- Some store of the instruction falls on one of its own bytes (R240). -/
abbrev overwritesItself (s : State) (i : Instr) : Prop := ∃ a ∈ storeAddrs s i, a ∈ s.ownBytes i.length

/-- The flags an instruction may write: the table of R29 with its notes (M and X for an XCE that sets E). -/
def mayWriteFlag (s : State) : Instr → Flag → Bool
  | .rep _, _ | .sep _, _ => true
  | .cop _, f => f == .d || f == .i
  | .xce, f => f == .c || (s.flag .c && (f == .m || f == .x))
  | .xba, f | .plb, f | .pld, f | .plx, f | .ply, f | .tcd, f | .tdc, f | .tsc, f | .txy, f | .tyx, f => f == .n || f == .z
  | .tsbAbs _, f | .tsbDp _, f | .trbAbs _, f | .trbDp _, f => f == .z
  | _, _ => false

/-- The index register moved by `k` in the direction of the block move, at its current width (R125). -/
def movedIndex (x8 up : Bool) (v : Word) (k : Nat) : Word :=
  match x8, up with
  | true, true => wordOf (hiByte v) (loByte v + BitVec.ofNat 8 k)
  | true, false => wordOf (hiByte v) (loByte v - BitVec.ofNat 8 k)
  | false, true => v + BitVec.ofNat 16 k
  | false, false => v - BitVec.ofNat 16 k

/-- Memory after the first `k` bytes of a block move, each read seeing the writes before it (R125). -/
def moved (s : State) (up : Bool) (dst src : Byte) : Nat → State
  | 0 => s
  | k + 1 =>
    let u := moved s up dst src k
    u.writeByte (longAddr dst (movedIndex (s.flag .x) up s.y k)) (u.readByte (longAddr src (movedIndex (s.flag .x) up s.x k)))

/-- MVN or MVP by direction. -/
def blockMove (up : Bool) (dst src : Byte) : Instr := if up then .mvn dst src else .mvp dst src

/-- The inputs of this boundary leave the machine to its program: no reset, no NMI, no ABORT, and no IRQ but one that a settled
mask holds off (R207). -/
abbrev programGoesOn (s : State) : Prop :=
  s.inputsNow.reset = false ∧ s.inputsNow.resetDuring = false ∧ s.inputsNow.abort = false ∧ s.abortPending = false ∧
    s.nmiPending = false ∧ s.inputsNow.nmi = false ∧
    (s.inputsNow.irq = false ∨ (s.iJustChanged = false ∧ s.flag .i = true))

/-- The state with this boundary behind it: the inputs consumed, the note of a changed `P.I` gone, the counter advanced. -/
def pastBoundary (s : State) : State :=
  { s with schedule := s.schedule.tail, iJustChanged := false, tick := s.tick + 1 }

end Sys2Proof.Claim

open Sys2Proof Sys2Proof.Machine Sys2Proof.Claim

/-! ## Encoding -/

/-- DECODE AND ENCODE AGREE (R80, R81, R82, R83, R85): wherever the bytes of a well-formed instruction stand, whatever follows
them, the decoder reads that instruction with every operand. -/
def Obligations.DecodeOfEncode : Prop :=
  ∀ (i : Instr) (b0 b1 b2 b3 : Byte), i.wellFormed = true → encode i <+: [b0, b1, b2, b3] → decode b0 b1 b2 b3 = .ok i

/-- No two byte patterns stand for one instruction (R80, R82): what the decoder reads is well-formed, its encoding is the bytes
read, and its length is the source's. -/
def Obligations.EncodeOfDecode : Prop :=
  ∀ (i : Instr) (b0 b1 b2 b3 : Byte), decode b0 b1 b2 b3 = .ok i →
    i.wellFormed = true ∧ encode i <+: [b0, b1, b2, b3] ∧ (encode i).length = i.length

/-- The decoder reads every opcode byte of the 41 of R85, whatever follows, and refuses every other by name (R4, R87 (c), D1; log
entry 14). -/
def Obligations.OnlySubsetOpcodesDecode : Prop :=
  ∀ b0 b1 b2 b3 : Byte,
    (b0 ∈ opcodes → ∃ i, decode b0 b1 b2 b3 = .ok i) ∧ (b0 ∉ opcodes → decode b0 b1 b2 b3 = .error (.outsideSubset b0))

/-- Words written out from the encodings of R85, R82 and R83 decode to what they stand for (the block move's destination bank
comes first, `JSL $123456` is `22 56 34 12`, displacements are signed). -/
def Obligations.SpecWordsDecode : Prop :=
  decode 0x54 0x02 0x01 0x00 = .ok (.mvn 0x02 0x01) ∧ decode 0x22 0x56 0x34 0x12 = .ok (.jsl 0x123456) ∧
    decode 0x82 0xFD 0xFF 0x00 = .ok (.brl (-3)) ∧ decode 0x80 0xFE 0x00 0x00 = .ok (.bra (-2)) ∧
    decode 0xC2 0x30 0x00 0x00 = .ok (.rep 0x30) ∧ decode 0xF4 0x34 0x12 0x00 = .ok (.pea 0x1234) ∧
    decode 0x9E 0x00 0x20 0x00 = .ok (.stzAbsX 0x2000) ∧ decode 0x5B 0x00 0x00 0x00 = .ok .tcd

/-! ## The step -/

/-- A STEP RUNS THE DECODED INSTRUCTION (R11 (4), R27, R207 line 5): where the boundary lets the program go on and the bytes at
`PB : PC` decode to `i`, the step is `exec` of `i` at the state past the boundary. -/
def Obligations.StepRunsDecodedInstruction : Prop :=
  ∀ (s : State) (i : Instr), s.runState = .running → programGoesOn s → (pastBoundary s).fetch = .ok i →
    step s = exec i (pastBoundary s)

/-- The step refuses an opcode byte outside the subset by its name, not as a trap and not as a no-op (R4, R87 (c),
D1; log entry 14). -/
def Obligations.StepRefusesOutsideSubset : Prop :=
  ∀ s : State, s.runState = .running → programGoesOn s → (pastBoundary s).codeByte 0 ∉ opcodes →
    step s = .refused (.outsideSubset ((pastBoundary s).codeByte 0))

/-- THE INVARIANTS OF R33 (I1, I2, I3) are kept by every step of every kind: instructions, interrupts, ABORT, reset. -/
def Obligations.StepKeepsModeInvariants : Prop :=
  ∀ s t : State, s.modesOk → step s = .next t → t.modesOk

/-- The state after reset satisfies the invariants of R33 (R44). -/
def Obligations.ResetSatisfiesModeInvariants : Prop := State.reset.modesOk

/-- Every step keeps the canonical form of memory, the model's own form of R50 (log entry 1): equal memories are equal data. -/
def Obligations.StepKeepsMemoryForm : Prop :=
  ∀ s t : State, s.memOk → step s = .next t → t.memOk

/-- The memory of the state after reset has the canonical form (the model's own: log entry 1). -/
def Obligations.ResetMemoryForm : Prop := State.reset.memOk

/-- THE STATE AFTER RESET (R44): every value the table of R44 gives; PC is the word at the reset vector. The components R45
leaves unspecified are not stated; what the vector holds is log entry 1. -/
def Obligations.ResetStateAsSpecified : Prop :=
  resetValues State.reset ∧ State.reset.pc = word0 State.reset 0xFFFC

/-- No step writes memory that is not RAM, changes the memory map or changes one of the parameters `CopEmuBit4`, `AbortModelled`,
`EmuStackCross` and `WdmMeaning` (R57, U11, R6, R221; log entries 3, 6, 7, 8 and 9). -/
def Obligations.StepWritesOnlyRam : Prop :=
  ∀ s t : State, s.memOk → step s = .next t →
    t.memMap = s.memMap ∧ t.copEmuBit4 = s.copEmuBit4 ∧ t.abortModelled = s.abortModelled ∧
      t.emuStackCross = s.emuStackCross ∧ t.wdmMeaning = s.wdmMeaning ∧
      ∀ a : Addr, s.kindAt a ≠ .ram → Memory.read t.mem a.toNat = Memory.read s.mem a.toNat

/-- RESET asserted at a boundary, in any RunState and before every other event (R207 line 1, R230, R231): the reset sequence;
A, XL, YL, N, V, Z and C are held, SL is not stated (log entry 11). That a pending ABORT is cleared is the model's choice, no
rule's (log entry 11). Memory and everything else are as they were. An ABORT asserted with it is one the model has (U7, log
entry 9). -/
def Obligations.ResetInputResets : Prop :=
  ∀ s : State, s.inputsNow.reset = true → s.inputsNow.resetDuring = false → (s.inputsNow.abort = true → s.abortModelled = true) →
    ∃ t, step s = .next t ∧ resetValues t ∧
      t = { pastBoundary s with
        e := true
        p := (s.p &&& 0xC3) ||| 0x34
        sp := t.sp
        x := wordOf 0 (loByte s.x)
        y := wordOf 0 (loByte s.y)
        d := 0
        db := 0
        pb := 0
        pc := t.pc
        runState := .running
        nmiPending := false
        abortPending := false }

/-- A RESET that cuts a step short (R230, U13; log entry 12): the reset values; each byte of memory is the one before the step or
the one the step would have left; the platform saw some, all or none of its device writes, in order. -/
def Obligations.ResetCutsStepShort : Prop :=
  ∀ s u : State, s.memOk → s.inputsNow.resetDuring = true → s.perform = .next u →
    ∃ t, step s = .next t ∧ resetValues t ∧
      (∀ a, Memory.read t.mem a = Memory.read s.mem a ∨ Memory.read t.mem a = Memory.read u.mem a) ∧
      ∃ w, t.deviceOut = s.deviceOut ++ w ∧ w <+: u.deviceOut.drop s.deviceOut.length

/-- STOPPED is left only by reset (R111, R11 (1), D11): without it a step changes nothing of the machine, whatever IRQ, NMI and
an ABORT that is modelled (log entry 9) do. -/
def Obligations.StoppedUntilReset : Prop :=
  ∀ s : State, s.runState = .stopped → s.inputsNow.reset = false → s.inputsNow.resetDuring = false →
    (s.inputsNow.abort = true → s.abortModelled = true) →
    step s = .next (pastBoundary s)

/-- WAITING (R112, R207, D12): with no input asserted the machine stays as it is; if no input can ever come it is stuck, which is
a fault by name; an IRQ that `P.I` masks ends the wait and the instruction after the WAI executes in the same step (log entry 15). -/
def Obligations.WaitingUntilInput : Prop :=
  (∀ s : State, s.runState = .waiting → s.nmiPending = false → s.abortPending = false → s.inputsNow = Inputs.quiet →
    (s.schedule = [] → step s = .fault .waitingForever) ∧ (s.schedule ≠ [] → step s = .next (pastBoundary s))) ∧
  (∀ (s : State) (i : Instr), s.runState = .waiting → programGoesOn s → s.inputsNow.irq = true →
    (pastBoundary s).fetch = .ok i → step s = exec i { pastBoundary s with runState := .running })

/-! ## Interrupts -/

/-- NMI (R205, R207 line 3): pending or just arrived, and no reset or ABORT, it is taken at the boundary, running or waiting,
whatever IRQ and `P.I` are; the latch is cleared. -/
def Obligations.NmiTakenAtBoundary : Prop :=
  ∀ s : State, s.memOk → s.runState ≠ .stopped → s.inputsNow.reset = false → s.inputsNow.resetDuring = false →
    s.inputsNow.abort = false → s.abortPending = false → (s.nmiPending = true ∨ s.inputsNow.nmi = true) →
    ∃ t, step s = .next t ∧ entersInterrupt (pastBoundary s) t s.pc 0xFFEA 0xFFFA false false

/-- IRQ (R205, R207 line 4): asserted with `P.I` 0 (and settled) and no event of higher priority, it is taken at the boundary,
running or waiting. -/
def Obligations.IrqTakenAtBoundary : Prop :=
  ∀ s : State, s.memOk → s.runState ≠ .stopped → s.inputsNow.reset = false → s.inputsNow.resetDuring = false →
    s.inputsNow.abort = false → s.abortPending = false → s.nmiPending = false → s.inputsNow.nmi = false →
    s.inputsNow.irq = true → s.flag .i = false → s.iJustChanged = false →
    ∃ t, step s = .next t ∧ entersInterrupt (pastBoundary s) t s.pc 0xFFEE 0xFFFE false false

/-- The boundary after a REP or SEP that changed `P.I` (R207, D19, U8; the choice between the two outcomes is left free, log entry
10): an asserted IRQ is either taken or the next instruction executes, and nothing else happens. -/
def Obligations.IrqAfterMaskChange : Prop :=
  ∀ (s : State) (i : Instr), s.memOk → s.runState = .running → s.inputsNow = { Inputs.quiet with irq := true } →
    s.abortPending = false → s.nmiPending = false → s.iJustChanged = true → (pastBoundary s).fetch = .ok i →
    step s = exec i (pastBoundary s) ∨
      ∃ t, step s = .next t ∧ entersInterrupt (pastBoundary s) t s.pc 0xFFEE 0xFFFE false false

/-- ABORT during an instruction, where `AbortModelled` is true (R208; the register-by-register detail is the model's choice, log
entry 9): its memory writes stand, its changes to the registers are discarded, and the ABORT is pending. -/
def Obligations.AbortDiscardsRegisters : Prop :=
  ∀ (s u : State) (i : Instr), s.abortModelled = true → s.runState = .running →
    s.inputsNow = { Inputs.quiet with abort := true } →
    s.abortPending = false → s.nmiPending = false → (pastBoundary s).fetch = .ok i → exec i (pastBoundary s) = .next u →
    step s = .next { pastBoundary s with mem := u.mem, deviceOut := u.deviceOut, abortPending := true }

/-- Where `AbortModelled` is true, a pending ABORT is taken at the boundary before NMI and IRQ, with the address of the aborted
instruction (R207 line 2, R208; log entry 9), and an NMI that arrives stays latched. An ABORT that ends a wait is taken with PC,
the address after the WAI, as the return address, so that the program resumes there (R112, R205, R220). -/
def Obligations.AbortTakenAtBoundary : Prop :=
  (∀ s : State, s.memOk → s.abortModelled = true → s.runState = .running → s.inputsNow.reset = false →
    s.inputsNow.resetDuring = false → s.inputsNow.abort = false → s.abortPending = true →
    ∃ t, step s = .next t ∧
      entersInterrupt (pastBoundary s) t s.pc 0xFFE8 0xFFF8 (s.nmiPending || s.inputsNow.nmi) false) ∧
  (∀ s : State, s.memOk → s.abortModelled = true → s.runState = .waiting → s.inputsNow.reset = false →
    s.inputsNow.resetDuring = false → s.inputsNow.abort = true →
    ∃ t, step s = .next t ∧
      entersInterrupt (pastBoundary s) t s.pc 0xFFE8 0xFFF8 (s.nmiPending || s.inputsNow.nmi) false)

/-- COP in native mode (R110, R204, R203): PB, the address after the signature byte and P are pushed, then I is set, D cleared, PB
cleared, and PC loaded from `00:FFE4` with the frame in memory; the signature byte has no effect. -/
def Obligations.CopTrapsInNativeMode : Prop :=
  (∀ b1 b2 b3, decode 0x02 b1 b2 b3 = .ok (.cop b1)) ∧
  ∀ (s : State) (sig : Byte), s.e = false → s.memOk →
    s.clearOfOwn 2 [bank0 s.sp, bank0 (s.sp - 1), bank0 (s.sp - 2), bank0 (s.sp - 3)] →
    ∃ t, exec (.cop sig) s = .next t ∧
      t = { s with
        sp := s.sp - 4
        p := interruptP s.p
        pb := 0
        pc := t.readVector 0xFFE4
        mem := t.mem
        deviceOut := t.deviceOut } ∧
      s.afterStores t [(bank0 s.sp, s.pb), (bank0 (s.sp - 1), hiByte (s.pc + 2)), (bank0 (s.sp - 2), loByte (s.pc + 2)),
        (bank0 (s.sp - 3), s.p)]

/-- COP in emulation mode (R110, R204, R203): three bytes are pushed, the pushed status has bit 5 set and bit 4 as `CopEmuBit4`,
the pushes wrap in page 1, the vector is `00:FFF4`; PB is cleared though not saved. -/
def Obligations.CopTrapsInEmulationMode : Prop :=
  ∀ (s : State) (sig : Byte), s.e = true → s.memOk →
    s.clearOfOwn 2 [bank0 s.sp, bank0 (downOrd true s.sp 1), bank0 (downOrd true s.sp 2)] →
    ∃ t, exec (.cop sig) s = .next t ∧
      t = { s with
        sp := downOrd true s.sp 3
        p := interruptP s.p
        pb := 0
        pc := t.readVector 0xFFF4
        mem := t.mem
        deviceOut := t.deviceOut } ∧
      s.afterStores t [(bank0 s.sp, hiByte (s.pc + 2)), (bank0 (downOrd true s.sp 1), loByte (s.pc + 2)),
        (bank0 (downOrd true s.sp 2), (s.p &&& 0xCF) ||| 0x20 ||| (if s.copEmuBit4 then 0x10 else 0x00))]

/-! ## System, control transfer -/

/-- STP and WAI advance PC and change RunState (R111, R112); WDM only skips its two bytes where the open parameter `WdmMeaning` has
its default, and is refused by name where it is "refuse" (R113, R6, D10; log entry 8). -/
def Obligations.StopWaitAndReservedOpcode : Prop :=
  encodedAlone 0xDB .stp ∧ encodedAlone 0xCB .wai ∧ (∀ b1 b2 b3, decode 0x42 b1 b2 b3 = .ok (.wdm b1)) ∧
  ∀ s : State, exec .stp s = .next { s with pc := s.pc + 1, runState := .stopped } ∧
    exec .wai s = .next { s with pc := s.pc + 1, runState := .waiting } ∧
    ∀ b : Byte, (s.wdmMeaning = .twoByteNop → exec (.wdm b) s = .next { s with pc := s.pc + 2 }) ∧
      (s.wdmMeaning = .refuse → exec (.wdm b) s = .refused .wdmReserved)

/-- BRA and BRL (R101, R105, R84): the sign-extended displacement is added to the address of the next instruction, modulo 2^16,
PB and everything else unchanged; from the bytes of the encoding. -/
def Obligations.RelativeBranchesTaken : Prop :=
  (∀ (s : State) (b1 b2 b3 : Byte),
    ∃ i, decode 0x80 b1 b2 b3 = .ok i ∧ exec i s = .next { s with pc := s.pc + 2 + b1.signExtend 16 }) ∧
  (∀ (s : State) (b1 b2 b3 : Byte),
    ∃ i, decode 0x82 b1 b2 b3 = .ok i ∧ exec i s = .next { s with pc := s.pc + 3 + wordOf b2 b1 })

/-- JML (R102, R69): PC and PB from the three bytes at `00:aaaa`, the offsets wrapping in bank 0; nothing else changes. -/
def Obligations.JumpLongThroughPointer : Prop :=
  (∀ b1 b2 b3, decode 0xDC b1 b2 b3 = .ok (.jml (wordOf b2 b1))) ∧
  ∀ (s : State) (abs : Word), exec (.jml abs) s = .next { s with
    pc := word0 s abs
    pb := s.readByte (bank0 (abs + 2)) }

/-- JSL (R103): PB, then the offset of the instruction's last byte high byte first, are pushed; PB and PC from the operand. Where
no access leaves page 1 in emulation mode; the other case is `NewStylePushesLeavePageOne`. -/
def Obligations.JumpSubroutineLong : Prop :=
  (∀ b1 b2 b3, decode 0x22 b1 b2 b3 = .ok (.jsl (longAddr b3 (wordOf b2 b1)))) ∧
  ∀ (s : State) (target : Addr), noPushCrossing s 3 → calls target s

/-- RTL (R104): the word pulled plus one, modulo 2^16, to PC, the next byte to PB. Where no access leaves page 1 in emulation mode; the
other case is `NewStylePullsLeavePageOne`. -/
def Obligations.ReturnFromSubroutineLong : Prop :=
  encodedAlone 0x6B .rtl ∧ ∀ s : State, noPullCrossing s 3 → returns s

/-- A SUBROUTINE RETURNS (R100 (f), R103, R104): an RTL that follows a JSL with the stack as the JSL left it continues after the
JSL in its bank, S as before, whatever target and mode, the stack in RAM and SL, which RTL needs back in page 1, not wrapping in
emulation mode. -/
def Obligations.SubroutineReturnsAfterCall : Prop :=
  ∀ (s : State) (target : Addr), s.memOk → s.modesOk → (s.e = false ∨ 3 ≤ (loByte s.sp).toNat) →
    s.clearOfOwn 4 [bank0 s.sp, bank0 (s.sp - 1), bank0 (s.sp - 2)] →
    (∀ a ∈ [bank0 s.sp, bank0 (s.sp - 1), bank0 (s.sp - 2)], s.kindAt a = .ram) →
    ∃ t, exec (.jsl target) s = .next t ∧ exec .rtl t = .next { s with pc := s.pc + 4, mem := t.mem, deviceOut := t.deviceOut }

/-! ## Block moves -/

/-- One iteration of MVN or MVP (R122, R123, R124): DB is the destination bank, one byte goes from `src : X` to `dst : Y`, X and Y
move at the index width, A counts down on 16 bits, and PC stays on the instruction while A was not zero. -/
def Obligations.BlockMoveIteration : Prop :=
  (∀ b1 b2 b3, decode 0x54 b1 b2 b3 = .ok (.mvn b1 b2)) ∧ (∀ b1 b2 b3, decode 0x44 b1 b2 b3 = .ok (.mvp b1 b2)) ∧
  ∀ (s : State) (up : Bool) (dst src : Byte), s.memOk → s.clearOfOwn 3 [longAddr dst s.y] →
    ∃ t, exec (blockMove up dst src) s = .next t ∧
      t = { s with
        db := dst
        x := movedIndex (s.flag .x) up s.x 1
        y := movedIndex (s.flag .x) up s.y 1
        a := s.a - 1
        pc := if s.a = 0 then s.pc + 3 else s.pc
        mem := t.mem
        deviceOut := t.deviceOut } ∧
      s.afterStores t [(longAddr dst s.y, s.readByte (longAddr src s.x))]

/-- A WHOLE BLOCK MOVE (R125): from a state whose bytes at `PB : PC` are the block move, in an all-RAM machine that no input
disturbs, whose stores do not fall on its own bytes, A + 1 steps move A + 1 bytes in order, each read seeing the earlier writes,
and leave A = $FFFF, X and Y moved by A + 1 at their width, DB the destination bank, PC after the instruction, and nothing else
changed. -/
def Obligations.WholeBlockMove : Prop :=
  ∀ (s : State) (up : Bool) (dst src : Byte), s.runState = .running → s.schedule = [] → s.nmiPending = false →
    s.abortPending = false → s.memMap = [] → s.fetch = .ok (blockMove up dst src) →
    (∀ k ≤ s.a.toNat, longAddr dst (movedIndex (s.flag .x) up s.y k) ∉ s.ownBytes 3) →
    Host.Core.run Sys2Proof.core (s.a.toNat + 1) s = .next { moved s up dst src (s.a.toNat + 1) with
      a := 0xFFFF
      x := movedIndex (s.flag .x) up s.x (s.a.toNat + 1)
      y := movedIndex (s.flag .x) up s.y (s.a.toNat + 1)
      db := dst
      pc := s.pc + 3
      iJustChanged := false
      tick := s.tick + (s.a.toNat + 1) }

/-! ## Status and mode -/

/-- REP (R130, R34): the flags of the mask are cleared; in emulation mode M and X are 1 again; XH and YH are zero where X is 1. -/
def Obligations.RepClearsMaskedFlags : Prop :=
  (∀ b1 b2 b3, decode 0xC2 b1 b2 b3 = .ok (.rep b1)) ∧
  ∀ (s : State) (m : Byte), ∃ t, exec (.rep m) s = .next t ∧
    t = { s with
      pc := s.pc + 2
      p := if s.e then (s.p &&& ~~~m) ||| 0x30 else s.p &&& ~~~m
      sp := ended s.e s.sp
      x := if t.flag .x then wordOf 0 (loByte s.x) else s.x
      y := if t.flag .x then wordOf 0 (loByte s.y) else s.y
      iJustChanged := t.flag .i != s.flag .i }

/-- SEP (R131, R34): the flags of the mask are set; XH and YH are cleared where X is then 1; A is not changed. -/
def Obligations.SepSetsMaskedFlags : Prop :=
  (∀ b1 b2 b3, decode 0xE2 b1 b2 b3 = .ok (.sep b1)) ∧
  ∀ (s : State) (m : Byte), ∃ t, exec (.sep m) s = .next t ∧
    t = { s with
      pc := s.pc + 2
      p := if s.e then s.p ||| m ||| 0x30 else s.p ||| m
      sp := ended s.e s.sp
      x := if t.flag .x then wordOf 0 (loByte s.x) else s.x
      y := if t.flag .x then wordOf 0 (loByte s.y) else s.y
      iJustChanged := t.flag .i != s.flag .i }

/-- XCE (R132, R34): C and E change places; a new E of 1 forces M, X, SH, XH and YH; A, SL, D, DB and PB are kept. -/
def Obligations.XceExchangesCarryAndEmulation : Prop :=
  encodedAlone 0xFB .xce ∧
  ∀ s : State, ∃ t, exec .xce s = .next t ∧
    t = { s with
      pc := s.pc + 1
      e := s.flag .c
      p := (s.p &&& 0xFE) ||| (if s.e then 0x01 else 0x00) ||| (if s.flag .c then 0x30 else 0x00)
      sp := ended (s.flag .c) s.sp
      x := if t.flag .x then wordOf 0 (loByte s.x) else s.x
      y := if t.flag .x then wordOf 0 (loByte s.y) else s.y }

/-! ## Transfers -/

/-- XBA (R140): the bytes of A change places, N and Z are those of the new AL, in every mode. -/
def Obligations.XbaSwapsAccumulatorBytes : Prop :=
  encodedAlone 0xEB .xba ∧
  ∀ s : State, exec .xba s = .next { s with
    pc := s.pc + 1
    a := wordOf (loByte s.a) (hiByte s.a)
    p := nz8 s.p (hiByte s.a) }

/-- TCD, TDC and TSC (R141, R143, R144): all 16 bits whatever M and E are, N and Z from the 16 bits moved. -/
def Obligations.AccumulatorTransfers : Prop :=
  encodedAlone 0x5B .tcd ∧ encodedAlone 0x7B .tdc ∧ encodedAlone 0x3B .tsc ∧
  ∀ s : State,
    exec .tcd s = .next { s with pc := s.pc + 1, d := s.a, p := nz16 s.p s.a } ∧
    exec .tdc s = .next { s with pc := s.pc + 1, a := s.d, p := nz16 s.p s.d } ∧
    exec .tsc s = .next { s with pc := s.pc + 1, a := s.sp, p := nz16 s.p s.sp }

/-- TCS (R142): S from A, in emulation mode SL alone with SH $01; no flag is written. -/
def Obligations.TcsLoadsStackPointer : Prop :=
  encodedAlone 0x1B .tcs ∧
  ∀ s : State, exec .tcs s = .next { s with pc := s.pc + 1, sp := if s.e then wordOf 0x01 (loByte s.a) else s.a }

/-- TXY and TYX (R145, R146): at the index width, N and Z at that width; with `P.X` 1 the high byte of the destination stays. -/
def Obligations.IndexTransfers : Prop :=
  encodedAlone 0x9B .txy ∧ encodedAlone 0xBB .tyx ∧
  (∀ s : State, s.flag .x = true →
    exec .txy s = .next { s with pc := s.pc + 1, y := wordOf (hiByte s.y) (loByte s.x), p := nz8 s.p (loByte s.x) } ∧
    exec .tyx s = .next { s with pc := s.pc + 1, x := wordOf (hiByte s.x) (loByte s.y), p := nz8 s.p (loByte s.y) }) ∧
  (∀ s : State, s.flag .x = false →
    exec .txy s = .next { s with pc := s.pc + 1, y := s.x, p := nz16 s.p s.x } ∧
    exec .tyx s = .next { s with pc := s.pc + 1, x := s.y, p := nz16 s.p s.y })

/-! ## Stack -/

/-- S moves by one for each byte of an ordinary push or pull, in emulation mode SL alone (R61, R60); the push at `S = $0100` leaves
$01FF. -/
def Obligations.OrdinaryStackPointerMoves : Prop :=
  (∀ sp, ordDown false sp = sp - 1 ∧ ordUp false sp = sp + 1) ∧
  (∀ sp, hiByte (ordDown true sp) = hiByte sp ∧ loByte (ordDown true sp) = loByte sp - 1 ∧
    hiByte (ordUp true sp) = hiByte sp ∧ loByte (ordUp true sp) = loByte sp + 1) ∧
  ordDown true 0x0100 = 0x01FF

/-- PEA (R151): the operand itself is pushed, high byte first. Where no access leaves page 1 in emulation mode. -/
def Obligations.PeaPushesOperand : Prop :=
  (∀ b1 b2 b3, decode 0xF4 b1 b2 b3 = .ok (.pea (wordOf b2 b1))) ∧
  ∀ (s : State) (w : Word), noPushCrossing s 2 → pushesWordNew (.pea w) 3 w s

/-- PEI (R152, R66): the word at `00 : D + dp` is pushed. Where no access leaves page 1 in emulation mode and the location is not the
one of U4 (`E = 1`, `DL = $00`, `dp = $FF`). -/
def Obligations.PeiPushesDirectPageWord : Prop :=
  (∀ b1 b2 b3, decode 0xD4 b1 b2 b3 = .ok (.pei b1)) ∧
  ∀ (s : State) (dp : Byte), noPushCrossing s 2 → (s.e = false ∨ loByte s.d ≠ 0 ∨ dp ≠ 0xFF) →
    pushesWordNew (.pei dp) 2 (word0 s (s.d + BitVec.ofNat 16 dp.toNat)) s

/-- PER (R153, R84): the address of the next instruction plus the displacement is pushed; PC only advances. Where no access leaves
page 1 in emulation mode. -/
def Obligations.PerPushesRelativeAddress : Prop :=
  ∀ (s : State) (b1 b2 b3 : Byte), noPushCrossing s 2 →
    ∃ i, decode 0x62 b1 b2 b3 = .ok i ∧ pushesWordNew i 3 (s.pc + 3 + wordOf b2 b1) s

/-- PHD (R155): D is pushed. Where no access leaves page 1 in emulation mode. -/
def Obligations.PhdPushesDirectRegister : Prop :=
  encodedAlone 0x0B .phd ∧ ∀ s : State, noPushCrossing s 2 → pushesWordNew .phd 1 s.d s

/-- PHB and PHK (R154, R156): one byte, the ordinary push. -/
def Obligations.PhbPhkPushBankRegister : Prop :=
  encodedAlone 0x8B .phb ∧ encodedAlone 0x4B .phk ∧
  ∀ (s : State) (i : Instr) (v : Byte), (i = .phb ∧ v = s.db) ∨ (i = .phk ∧ v = s.pb) → s.memOk →
    s.clearOfOwn 1 [bank0 s.sp] →
    ∃ t, exec i s = .next t ∧
      t = { s with pc := s.pc + 1, sp := downOrd s.e s.sp 1, mem := t.mem, deviceOut := t.deviceOut } ∧
      s.afterStores t [(bank0 s.sp, v)]

/-- PHX and PHY (R157, R158): one byte where `P.X` is 1, a word high byte first where it is 0, the ordinary push. -/
def Obligations.PhxPhyPushIndexRegister : Prop :=
  encodedAlone 0xDA .phx ∧ encodedAlone 0x5A .phy ∧
  ∀ (s : State) (i : Instr) (v : Word), (i = .phx ∧ v = s.x) ∨ (i = .phy ∧ v = s.y) → s.memOk →
    (s.flag .x = true → s.clearOfOwn 1 [bank0 s.sp] →
      ∃ t, exec i s = .next t ∧
        t = { s with pc := s.pc + 1, sp := downOrd s.e s.sp 1, mem := t.mem, deviceOut := t.deviceOut } ∧
        s.afterStores t [(bank0 s.sp, loByte v)]) ∧
    (s.flag .x = false → s.clearOfOwn 1 [bank0 s.sp, bank0 (downOrd s.e s.sp 1)] →
      ∃ t, exec i s = .next t ∧
        t = { s with pc := s.pc + 1, sp := downOrd s.e s.sp 2, mem := t.mem, deviceOut := t.deviceOut } ∧
        s.afterStores t [(bank0 s.sp, hiByte v), (bank0 (downOrd s.e s.sp 1), loByte v)])

/-- PLB (R159): one byte pulled to DB, N and Z from it. Where no access leaves page 1 in emulation mode. -/
def Obligations.PlbPullsDataBank : Prop :=
  encodedAlone 0xAB .plb ∧ ∀ s : State, noPullCrossing s 1 → pullsDb s

/-- PLD (R160): a word pulled to D, low byte first, N and Z from its 16 bits. Where no access leaves page 1 in emulation mode. -/
def Obligations.PldPullsDirectRegister : Prop :=
  encodedAlone 0x2B .pld ∧ ∀ s : State, noPullCrossing s 2 → pullsD s

/-- PLX and PLY (R161, R162): one byte where `P.X` is 1, the high byte of the register staying; a word low byte first where it is
0; N and Z at that width; the ordinary pull, which wraps in page 1 in emulation mode. -/
def Obligations.PlxPlyPullIndexRegister : Prop :=
  encodedAlone 0xFA .plx ∧ encodedAlone 0x7A .ply ∧
  (∀ s : State, s.flag .x = true →
    let v := s.readByte (bank0 (upOrd s.e s.sp 1))
    exec .plx s = .next { s with pc := s.pc + 1, sp := upOrd s.e s.sp 1, x := wordOf (hiByte s.x) v, p := nz8 s.p v } ∧
    exec .ply s = .next { s with pc := s.pc + 1, sp := upOrd s.e s.sp 1, y := wordOf (hiByte s.y) v, p := nz8 s.p v }) ∧
  (∀ s : State, s.flag .x = false →
    let v := wordOf (s.readByte (bank0 (upOrd s.e s.sp 2))) (s.readByte (bank0 (upOrd s.e s.sp 1)))
    exec .plx s = .next { s with pc := s.pc + 1, sp := upOrd s.e s.sp 2, x := v, p := nz16 s.p v } ∧
    exec .ply s = .next { s with pc := s.pc + 1, sp := upOrd s.e s.sp 2, y := v, p := nz16 s.p v })

/-- In emulation mode the pushes of PEA, PEI, PER, PHD and JSL that leave page 1 use a 16-bit S and end with SH $01, and PEI reads
without a page wrap, where the open parameter `EmuStackCross` is "as described" (R63, R66, D13; log entry 6). Where it is "refuse"
see `EveryInstructionCompletes`. -/
def Obligations.NewStylePushesLeavePageOne : Prop :=
  ∀ s : State, s.e = true → s.emuStackCross = .described →
  (∀ w : Word, (loByte s.sp).toNat + 1 < 2 → pushesWordNew (.pea w) 3 w s) ∧
  (∀ dp : Byte, ((loByte s.sp).toNat + 1 < 2 ∨ (loByte s.d = 0 ∧ dp = 0xFF)) →
    pushesWordNew (.pei dp) 2 (word0 s (s.d + BitVec.ofNat 16 dp.toNat)) s) ∧
  (∀ r : Int, (loByte s.sp).toNat + 1 < 2 → pushesWordNew (.per r) 3 (s.pc + 3 + BitVec.ofInt 16 r) s) ∧
  ((loByte s.sp).toNat + 1 < 2 → pushesWordNew .phd 1 s.d s) ∧
  (∀ target : Addr, (loByte s.sp).toNat + 1 < 3 → calls target s)

/-- In emulation mode the pulls of PLB, PLD and RTL that leave page 1 use a 16-bit S and end with SH $01, where the open
parameter `EmuStackCross` is "as described" (R63, D13; log entry 6). Where it is "refuse" see `EveryInstructionCompletes`. -/
def Obligations.NewStylePullsLeavePageOne : Prop :=
  ∀ s : State, s.e = true → s.emuStackCross = .described →
    (0xFF < (loByte s.sp).toNat + 1 → pullsDb s) ∧ (0xFF < (loByte s.sp).toNat + 2 → pullsD s) ∧
      (0xFF < (loByte s.sp).toNat + 3 → returns s)

/-! ## Memory operands -/

/-- The direct-page address of STZ, TSB and TRB (R65): in emulation mode with DL = $00 it wraps in the page, else in bank 0; it
never leaves bank 0. -/
def Obligations.DirectPageAddress : Prop :=
  ∀ (s : State) (off : Nat),
    (s.e = true → loByte s.d = 0 → hiByte (s.dirAddr off) = hiByte s.d ∧ (loByte (s.dirAddr off)).toNat = off % 256) ∧
    ((s.e = false ∨ loByte s.d ≠ 0) → (s.dirAddr off).toNat = (s.d.toNat + off) % 65536)

/-- STZ in its four modes (R171, R170): one zero byte where `P.M` is 1, two where it is 0; no register but PC changes. -/
def Obligations.StzClearsOperand : Prop :=
  (∀ b1 b2 b3, decode 0x9C b1 b2 b3 = .ok (.stzAbs (wordOf b2 b1)) ∧ decode 0x9E b1 b2 b3 = .ok (.stzAbsX (wordOf b2 b1)) ∧
    decode 0x64 b1 b2 b3 = .ok (.stzDp b1) ∧ decode 0x74 b1 b2 b3 = .ok (.stzDpX b1)) ∧
  ∀ (s : State) (i : Instr) (lo hi : Addr),
    (∃ abs dp, i = .stzAbs abs ∨ i = .stzAbsX abs ∨ i = .stzDp dp ∨ i = .stzDpX dp) → memoryOperand s i = some (lo, hi) →
    s.memOk → s.clearOfOwn i.length (operandAddrs s lo hi) →
    ∃ t, exec i s = .next t ∧
      t = { s with pc := s.pc + BitVec.ofNat 16 i.length, mem := t.mem, deviceOut := t.deviceOut } ∧
      s.afterStores t (if s.flag .m then [(lo, 0)] else [(lo, 0), (hi, 0)])

/-- TSB in its two modes (R172, R170): Z from the accumulator AND the old operand, the operand OR the accumulator stored, at the
width of `P.M`; a word's high byte is stored first. -/
def Obligations.TsbSetsOperandBits : Prop :=
  (∀ b1 b2 b3, decode 0x0C b1 b2 b3 = .ok (.tsbAbs (wordOf b2 b1)) ∧ decode 0x04 b1 b2 b3 = .ok (.tsbDp b1)) ∧
  ∀ (s : State) (i : Instr) (lo hi : Addr), (∃ abs dp, i = .tsbAbs abs ∨ i = .tsbDp dp) →
    memoryOperand s i = some (lo, hi) → s.memOk → s.clearOfOwn i.length (operandAddrs s lo hi) →
    (s.flag .m = true → ∃ t, exec i s = .next t ∧
      t = { s with
        pc := s.pc + BitVec.ofNat 16 i.length
        p := onlyZ s.p (decide (loByte s.a &&& s.readByte lo = 0))
        mem := t.mem
        deviceOut := t.deviceOut } ∧
      s.afterStores t [(lo, s.readByte lo ||| loByte s.a)]) ∧
    (s.flag .m = false → ∃ t, exec i s = .next t ∧
      t = { s with
        pc := s.pc + BitVec.ofNat 16 i.length
        p := onlyZ s.p (decide (s.a &&& wordOf (s.readByte hi) (s.readByte lo) = 0))
        mem := t.mem
        deviceOut := t.deviceOut } ∧
      s.afterStores t [(hi, s.readByte hi ||| hiByte s.a), (lo, s.readByte lo ||| loByte s.a)])

/-- TRB in its two modes (R173, R170): Z as TSB's, the operand AND NOT the accumulator stored. -/
def Obligations.TrbResetsOperandBits : Prop :=
  (∀ b1 b2 b3, decode 0x1C b1 b2 b3 = .ok (.trbAbs (wordOf b2 b1)) ∧ decode 0x14 b1 b2 b3 = .ok (.trbDp b1)) ∧
  ∀ (s : State) (i : Instr) (lo hi : Addr), (∃ abs dp, i = .trbAbs abs ∨ i = .trbDp dp) →
    memoryOperand s i = some (lo, hi) → s.memOk → s.clearOfOwn i.length (operandAddrs s lo hi) →
    (s.flag .m = true → ∃ t, exec i s = .next t ∧
      t = { s with
        pc := s.pc + BitVec.ofNat 16 i.length
        p := onlyZ s.p (decide (loByte s.a &&& s.readByte lo = 0))
        mem := t.mem
        deviceOut := t.deviceOut } ∧
      s.afterStores t [(lo, s.readByte lo &&& ~~~loByte s.a)]) ∧
    (s.flag .m = false → ∃ t, exec i s = .next t ∧
      t = { s with
        pc := s.pc + BitVec.ofNat 16 i.length
        p := onlyZ s.p (decide (s.a &&& wordOf (s.readByte hi) (s.readByte lo) = 0))
        mem := t.mem
        deviceOut := t.deviceOut } ∧
      s.afterStores t [(hi, s.readByte hi &&& ~~~hiByte s.a), (lo, s.readByte lo &&& ~~~loByte s.a)])

/-! ## All instructions -/

/-- EVERY INSTRUCTION COMPLETES (R11, R201, R55, R59): from every state, whatever its operands, it answers a next state in which
every address it does not store to reads as before. The exceptions are refused by name: an execution that the open parameter
`WdmMeaning` or `EmuStackCross` refuses (R6, D10, D13; log entries 6 and 8), and an instruction whose own store falls on its own
bytes (R240, D20; log entry 13). No instruction faults. -/
def Obligations.EveryInstructionCompletes : Prop :=
  ∀ (i : Instr) (s : State),
    (∀ r, refusedByParameter s i r → exec i s = .refused r) ∧
    ((∀ r, ¬ refusedByParameter s i r) → overwritesItself s i → exec i s = .refused .selfOverwrite) ∧
    ((∀ r, ¬ refusedByParameter s i r) → ¬ overwritesItself s i →
      ∃ t, exec i s = .next t ∧ ∀ k a, a ∉ storeAddrs s i → t.busRead k a = s.busRead k a)

/-- WHICH INSTRUCTION WRITES WHICH FLAG (R29): a flag outside the instruction's row of R29 and its notes is unchanged. -/
def Obligations.FlagsWrittenOnlyAsListed : Prop :=
  ∀ (i : Instr) (s t : State) (f : Flag), exec i s = .next t → mayWriteFlag s i f = false → t.flag f = s.flag f

/-- WHICH INSTRUCTION WRITES WHICH REGISTER (R38, R25, R32, R36): E only XCE; PB only JML, JSL, RTL and COP; DB only PLB and the
block moves; D only TCD and PLD; A only TDC, TSC, XBA and the block moves; RunState only STP and WAI; no instruction touches the
NMI latch, a pending ABORT, the schedule or the memory map. -/
def Obligations.RegistersWrittenOnlyAsListed : Prop :=
  ∀ (i : Instr) (s t : State), exec i s = .next t →
    (i ≠ .xce → t.e = s.e) ∧
    ((∀ w, i ≠ .jml w) → (∀ w, i ≠ .jsl w) → i ≠ .rtl → (∀ b, i ≠ .cop b) → t.pb = s.pb) ∧
    (i ≠ .plb → (∀ d r, i ≠ .mvn d r ∧ i ≠ .mvp d r) → t.db = s.db) ∧
    (i ≠ .tcd → i ≠ .pld → t.d = s.d) ∧
    (i ≠ .tdc → i ≠ .tsc → i ≠ .xba → (∀ d r, i ≠ .mvn d r ∧ i ≠ .mvp d r) → t.a = s.a) ∧
    (i ≠ .stp → i ≠ .wai → t.runState = s.runState) ∧
    t.nmiPending = s.nmiPending ∧ t.abortPending = s.abortPending ∧ t.schedule = s.schedule ∧ t.memMap = s.memMap

/-! ## Open parameters -/

/-- ABORT asserted in a machine that does not model it is refused by name, whatever else the boundary presents, and
nothing else is refused so (R6 `AbortModelled`, R208, D16, U7; log entry 9). -/
def Obligations.AbortRefusedUnlessModelled : Prop :=
  ∀ s : State, step s = .refused .abortNotModelled ↔ s.inputsNow.abort = true ∧ s.abortModelled = false
end

