-- ==== Sys2Proof/Laws/Bytes.lean ====
section
/-! SUPPORT. The bytes of a word and the parts of an address put together and taken apart. -/

namespace Sys2Proof

theorem toNat_wordOf (hi lo : Byte) : (wordOf hi lo).toNat = hi.toNat * 256 + lo.toNat := by
  have h : hi.toNat <<< 8 ||| lo.toNat = hi.toNat <<< 8 + lo.toNat :=
    (Nat.shiftLeft_add_eq_or_of_lt (i := 8) lo.isLt hi.toNat).symm
  rw [wordOf, BitVec.toNat_append, h, Nat.shiftLeft_eq]

theorem toNat_loByte (w : Word) : (loByte w).toNat = w.toNat % 256 := by
  simp [loByte, BitVec.extractLsb'_toNat]

theorem toNat_hiByte (w : Word) : (hiByte w).toNat = w.toNat / 256 := by
  have := w.isLt
  simp only [hiByte, BitVec.extractLsb'_toNat, Nat.shiftRight_eq_div_pow]
  omega

@[simp] theorem loByte_wordOf (hi lo : Byte) : loByte (wordOf hi lo) = lo := by
  apply BitVec.eq_of_toNat_eq
  have := lo.isLt
  rw [toNat_loByte, toNat_wordOf]
  omega

@[simp] theorem hiByte_wordOf (hi lo : Byte) : hiByte (wordOf hi lo) = hi := by
  apply BitVec.eq_of_toNat_eq
  have := lo.isLt
  rw [toNat_hiByte, toNat_wordOf]
  omega

@[simp] theorem wordOf_hiByte_loByte (w : Word) : wordOf (hiByte w) (loByte w) = w := by
  apply BitVec.eq_of_toNat_eq
  rw [toNat_wordOf, toNat_loByte, toNat_hiByte]
  omega

theorem wordOf_inj {h h' l l' : Byte} : wordOf h l = wordOf h' l' ↔ h = h' ∧ l = l' := by
  constructor
  · intro e
    exact ⟨by simpa using congrArg hiByte e, by simpa using congrArg loByte e⟩
  · rintro ⟨rfl, rfl⟩; rfl

theorem toNat_longAddr (bank : Byte) (off : Word) : (longAddr bank off).toNat = bank.toNat * 65536 + off.toNat := by
  have h : bank.toNat <<< 16 ||| off.toNat = bank.toNat <<< 16 + off.toNat :=
    (Nat.shiftLeft_add_eq_or_of_lt (i := 16) off.isLt bank.toNat).symm
  rw [longAddr, BitVec.toNat_append, h, Nat.shiftLeft_eq]

theorem longAddr_inj {b b' : Byte} {o o' : Word} : longAddr b o = longAddr b' o' ↔ b = b' ∧ o = o' := by
  constructor
  · intro e
    have h := congrArg BitVec.toNat e
    rw [toNat_longAddr, toNat_longAddr] at h
    have := o.isLt
    have := o'.isLt
    exact ⟨BitVec.eq_of_toNat_eq (by omega), BitVec.eq_of_toNat_eq (by omega)⟩
  · rintro ⟨rfl, rfl⟩; rfl

@[simp] theorem bank0_inj {o o' : Word} : bank0 o = bank0 o' ↔ o = o' := by
  simp [bank0, longAddr_inj]

@[simp] theorem offsetOf_longAddr (b : Byte) (o : Word) : offsetOf (longAddr b o) = o := by
  apply BitVec.eq_of_toNat_eq
  have := o.isLt
  simp only [offsetOf, BitVec.extractLsb'_toNat, toNat_longAddr, Nat.shiftRight_zero]
  omega

@[simp] theorem bankOf_longAddr (b : Byte) (o : Word) : bankOf (longAddr b o) = b := by
  apply BitVec.eq_of_toNat_eq
  have := o.isLt
  have := b.isLt
  simp only [bankOf, BitVec.extractLsb'_toNat, toNat_longAddr, Nat.shiftRight_eq_div_pow]
  omega

@[simp] theorem longAddr_bankOf_offsetOf (t : Addr) : longAddr (bankOf t) (offsetOf t) = t := by
  apply BitVec.eq_of_toNat_eq
  have := t.isLt
  rw [toNat_longAddr]
  simp only [bankOf, offsetOf, BitVec.extractLsb'_toNat, Nat.shiftRight_eq_div_pow]
  omega

@[simp] theorem loByte_setLo (w : Word) (b : Byte) : loByte (setLo w b) = b := by simp [setLo]

@[simp] theorem hiByte_setLo (w : Word) (b : Byte) : hiByte (setLo w b) = hiByte w := by simp [setLo]

end Sys2Proof
end

