-- ==== Sys2Proof/Laws/Flags.lean ====
section
/-! SUPPORT. The flags of P: reading one after writing one, and the index width. -/

namespace Sys2Proof.Machine

theorem getLsbD_withBit (p : Byte) (k : Nat) (v : Bool) (j : Nat) (hk : k < 8) (hj : j < 8) :
    (withBit p k v).getLsbD j = if j = k then v else p.getLsbD j := by
  have hone : (1#8 <<< k).getLsbD j = decide (j = k) := by
    rw [BitVec.getLsbD_shiftLeft]
    by_cases h : j = k
    · subst h; simp [hj]
    · by_cases h' : j < k
      · simp [h, h']
      · have : j - k ≠ 0 := by omega
        simp [h, BitVec.getLsbD_one, this]
  unfold withBit
  generalize 1#8 <<< k = q at hone ⊢
  cases v
  · simp only [Bool.false_eq_true, if_false, BitVec.getLsbD_and, BitVec.getLsbD_not, hone]
    by_cases h : j = k <;> simp [h, hj, hk]
  · simp only [if_true, BitVec.getLsbD_or, hone]
    by_cases h : j = k <;> simp [h]

theorem bitOf_lt (f : Flag) : bitOf f < 8 := by cases f <;> decide

theorem bitOf_inj {f g : Flag} : bitOf f = bitOf g ↔ f = g := by cases f <;> cases g <;> decide

/-- A flag read after one was written. -/
@[simp] theorem flagIn_setFlag (p : Byte) (f g : Flag) (v : Bool) :
    flagIn (setFlag p f v) g = if g = f then v else flagIn p g := by
  simp only [flagIn, setFlag, getLsbD_withBit p _ v _ (bitOf_lt f) (bitOf_lt g), bitOf_inj]

@[simp] theorem flagIn_setNZ8 (p v : Byte) (g : Flag) :
    flagIn (setNZ8 p v) g = if g = .z then decide (v = 0) else if g = .n then v.getLsbD 7 else flagIn p g := by
  simp [setNZ8]

@[simp] theorem flagIn_setNZ16 (p : Byte) (v : Word) (g : Flag) :
    flagIn (setNZ16 p v) g = if g = .z then decide (v = 0) else if g = .n then v.getLsbD 15 else flagIn p g := by
  simp [setNZ16]

/-- The computation of N and Z at the index width leaves the other flags alone. -/
theorem flagIn_setNZIndex_of_ne (p : Byte) (v : Word) (g : Flag) (hn : g ≠ .n) (hz : g ≠ .z) :
    flagIn (setNZIndex p v) g = flagIn p g := by
  unfold setNZIndex
  split <;> simp [hn, hz]

@[simp] theorem flagIn_setTestZ (p : Byte) (acc old : Word) (g : Flag) :
    flagIn (setTestZ p acc old) g = if g = .z then decide (acc &&& old = 0) else flagIn p g := by
  simp [setTestZ]

@[simp] theorem flagIn_and_not (p m : Byte) (f : Flag) : flagIn (p &&& ~~~m) f = (flagIn p f && !flagIn m f) := by
  simp [flagIn, bitOf_lt f]

@[simp] theorem flagIn_or (p m : Byte) (f : Flag) : flagIn (p ||| m) f = (flagIn p f || flagIn m f) := by
  simp [flagIn]

/-- Two status bytes with the same flags are the same byte. -/
theorem eq_of_flagIn {p q : Byte} (h : ∀ f, flagIn p f = flagIn q f) : p = q := by
  apply BitVec.eq_of_getLsbD_eq
  intro i hi
  match i, hi with
  | 0, _ => exact h .c
  | 1, _ => exact h .z
  | 2, _ => exact h .i
  | 3, _ => exact h .d
  | 4, _ => exact h .x
  | 5, _ => exact h .m
  | 6, _ => exact h .v
  | 7, _ => exact h .n

@[simp] theorem hiByte_clearHi (w : Word) : hiByte (clearHi w) = 0 := by simp [clearHi]

@[simp] theorem loByte_clearHi (w : Word) : loByte (clearHi w) = loByte w := by simp [clearHi]

end Sys2Proof.Machine
end

