-- ==== Sys2Proof/Laws/Memory.lean ====
section
/-! SUPPORT. Memory: a read after a write, other addresses, and the canonical form kept by every operation. -/

namespace Sys2Proof.Machine

theorem Memory.read_consCell (a b : Nat) (v : Byte) (m : List Host.Cell) (h : b ≠ a) :
    Memory.read (Memory.consCell a v m) b = Memory.read m b := by
  unfold Memory.consCell
  split
  · rfl
  · simp [Memory.read, h.symm]

/-- A write leaves every other address alone. -/
theorem Memory.read_write_ne (m : List Host.Cell) (a b : Nat) (v : Byte) (h : b ≠ a) :
    Memory.read (Memory.write m a v) b = Memory.read m b := by
  induction m with
  | nil => simp [Memory.write, Memory.read_consCell, h]
  | cons c m ih =>
    simp only [Memory.write]
    split
    · exact Memory.read_consCell _ _ _ _ h
    · split
      · next e => rw [Memory.read_consCell _ _ _ _ h]; simp [Memory.read, ← e, h.symm]
      · simp [Memory.read, ih]

/-- The canonical form above an address holds above every lower one. -/
theorem Memory.wfAbove_weaken {lo lo' : Option Nat} {m : List Host.Cell}
    (hlo : ∀ l ∈ lo', ∀ k, (∀ l' ∈ lo, l' < k) → l < k) (h : Memory.wfAbove lo m = true) : Memory.wfAbove lo' m = true := by
  cases m with
  | nil => rfl
  | cons c m =>
    simp only [Memory.wfAbove, Bool.and_eq_true] at h ⊢
    refine ⟨?_, h.2⟩
    cases lo' with
    | none => rfl
    | some l =>
      refine decide_eq_true (hlo l rfl _ ?_)
      intro l' e
      cases e
      exact of_decide_eq_true h.1

/-- Above the cells of a canonical memory nothing at or below `lo` is listed. -/
theorem Memory.read_of_wfAbove {l : Nat} {m : List Host.Cell} (h : Memory.wfAbove (some l) m = true) {a : Nat} (ha : a ≤ l) :
    Memory.read m a = blankByte a := by
  induction m generalizing l with
  | nil => rfl
  | cons c m ih =>
    simp only [Memory.wfAbove, Bool.and_eq_true, decide_eq_true_eq] at h
    have : c.1 ≠ a := by omega
    simp only [Memory.read, this, if_false]
    exact ih h.2.2.2 (by omega)

theorem Memory.read_consCell_self {a : Nat} {v : Byte} {m : List Host.Cell} (h : Memory.read m a = blankByte a) :
    Memory.read (Memory.consCell a v m) a = v := by
  unfold Memory.consCell
  split
  · next e => rw [h, e]
  · simp [Memory.read]

/-- A read after a write to the same address gives the byte written, in a canonical memory. -/
theorem Memory.read_write_self_above {lo : Option Nat} {m : List Host.Cell} (h : Memory.wfAbove lo m = true) (a : Nat) (v : Byte) :
    Memory.read (Memory.write m a v) a = v := by
  induction m generalizing lo with
  | nil => exact Memory.read_consCell_self rfl
  | cons c m ih =>
    have hm : Memory.wfAbove (some c.1) m = true := by
      simp only [Memory.wfAbove, Bool.and_eq_true] at h; exact h.2.2.2
    simp only [Memory.write]
    split
    · next hlt =>
      apply Memory.read_consCell_self
      have : c.1 ≠ a := by omega
      simp only [Memory.read, this, if_false]
      exact Memory.read_of_wfAbove hm (by omega)
    · split
      · next e => exact Memory.read_consCell_self (Memory.read_of_wfAbove hm (by omega))
      · next e =>
        have : c.1 ≠ a := fun x => e x.symm
        simp only [Memory.read, this, if_false]
        exact ih hm

theorem Memory.read_write_self {m : List Host.Cell} (h : Memory.wf m = true) (a : Nat) (v : Byte) :
    Memory.read (Memory.write m a v) a = v := Memory.read_write_self_above h a v

theorem Memory.wfAbove_consCell {lo : Option Nat} {a : Nat} {v : Byte} {m : List Host.Cell} (ha : a < 2 ^ 24)
    (hlo : ∀ l ∈ lo, l < a) (hm : Memory.wfAbove (some a) m = true) : Memory.wfAbove lo (Memory.consCell a v m) = true := by
  unfold Memory.consCell
  split
  · refine Memory.wfAbove_weaken (fun l hl k hk => ?_) hm
    exact Nat.lt_trans (hlo l hl) (hk a rfl)
  · next hv =>
    simp only [Memory.wfAbove, Bool.and_eq_true, decide_eq_true_eq]
    refine ⟨?_, ha, hv, hm⟩
    cases lo with
    | none => rfl
    | some l => exact decide_eq_true (hlo l rfl)

theorem Memory.wfAbove_write {lo : Option Nat} {m : List Host.Cell} {a : Nat} {v : Byte} (h : Memory.wfAbove lo m = true)
    (hlo : ∀ l ∈ lo, l < a) (ha : a < 2 ^ 24) : Memory.wfAbove lo (Memory.write m a v) = true := by
  induction m generalizing lo with
  | nil => exact Memory.wfAbove_consCell ha hlo rfl
  | cons c m ih =>
    have h' := h
    simp only [Memory.wfAbove, Bool.and_eq_true, decide_eq_true_eq] at h
    simp only [Memory.write]
    split
    · next hlt =>
      refine Memory.wfAbove_consCell ha hlo ?_
      simp only [Memory.wfAbove, Bool.and_eq_true, decide_eq_true_eq]
      exact ⟨hlt, h.2⟩
    · split
      · next e => exact Memory.wfAbove_consCell ha hlo (e ▸ h.2.2.2)
      · next hge e =>
        simp only [Memory.wfAbove, Bool.and_eq_true, decide_eq_true_eq]
        exact ⟨h.1, h.2.1, h.2.2.1, ih h.2.2.2 (fun l hl => by cases hl; omega)⟩

/-- A write keeps the canonical form. -/
theorem Memory.wf_write {m : List Host.Cell} (h : Memory.wf m = true) {a : Nat} (ha : a < 2 ^ 24) (v : Byte) :
    Memory.wf (Memory.write m a v) = true := Memory.wfAbove_write h (fun _ hl => by cases hl) ha

/-- Every listed address of a canonical memory lies in the address space. -/
theorem Memory.lt_of_wfAbove {lo : Option Nat} {m : List Host.Cell} (h : Memory.wfAbove lo m = true) {c : Host.Cell}
    (hc : c ∈ m) : c.1 < 2 ^ 24 := by
  induction m generalizing lo with
  | nil => cases hc
  | cons b m ih =>
    simp only [Memory.wfAbove, Bool.and_eq_true, decide_eq_true_eq] at h
    cases hc with
    | head => exact h.2.1
    | tail _ hc => exact ih h.2.2.2 hc

/-- What a memory cut between `old` and `new` is: canonical, and at each address the old byte or the new one. -/
theorem Memory.cut_spec (lands : Nat → Bool) {old new : List Host.Cell} (ho : Memory.wf old = true) (hn : Memory.wf new = true) :
    Memory.wf (Memory.cut lands old new) = true ∧
      ∀ a, Memory.read (Memory.cut lands old new) a = Memory.read old a ∨
        Memory.read (Memory.cut lands old new) a = Memory.read new a := by
  have key : ∀ (l : List Host.Cell) (m : List Host.Cell), (∀ c ∈ l, c.1 < 2 ^ 24) → Memory.wf m = true →
      (∀ a, Memory.read m a = Memory.read old a ∨ Memory.read m a = Memory.read new a) →
      Memory.wf (l.foldl (fun m c => if lands c.1 then Memory.write m c.1 (Memory.read new c.1) else m) m) = true ∧
      ∀ a, Memory.read (l.foldl (fun m c => if lands c.1 then Memory.write m c.1 (Memory.read new c.1) else m) m) a =
          Memory.read old a ∨
        Memory.read (l.foldl (fun m c => if lands c.1 then Memory.write m c.1 (Memory.read new c.1) else m) m) a =
          Memory.read new a := by
    intro l
    induction l with
    | nil => intro m _ hm hr; exact ⟨hm, hr⟩
    | cons c l ih =>
      intro m hl hm hr
      simp only [List.foldl_cons]
      have hl' : ∀ d ∈ l, d.1 < 2 ^ 24 := fun d hd => hl d (List.mem_cons_of_mem _ hd)
      split
      · refine ih _ hl' (Memory.wf_write hm (hl c List.mem_cons_self) _) (fun a => ?_)
        by_cases h : a = c.1
        · right; rw [h]; exact Memory.read_write_self hm _ _
        · rw [Memory.read_write_ne _ _ _ _ h]; exact hr a
      · exact ih _ hl' hm hr
  refine key _ _ (fun c hc => ?_) ho (fun a => .inl rfl)
  rcases List.mem_append.1 hc with h | h
  · exact Memory.lt_of_wfAbove ho h
  · exact Memory.lt_of_wfAbove hn h

end Sys2Proof.Machine
end

