-- ==== Sys2Proof/Laws/State.lean ====
section
/-! SUPPORT. One lemma per field for each update of the state: what it sets and what it leaves. -/

namespace Sys2Proof.Machine

@[simp] theorem writeByte_a (s : State) (a : Addr) (v : Byte) :
    (s.writeByte a v).a = s.a := by
  unfold State.writeByte; cases s.kindAt a <;> rfl
@[simp] theorem writeByte_x (s : State) (a : Addr) (v : Byte) :
    (s.writeByte a v).x = s.x := by
  unfold State.writeByte; cases s.kindAt a <;> rfl
@[simp] theorem writeByte_y (s : State) (a : Addr) (v : Byte) :
    (s.writeByte a v).y = s.y := by
  unfold State.writeByte; cases s.kindAt a <;> rfl
@[simp] theorem writeByte_sp (s : State) (a : Addr) (v : Byte) :
    (s.writeByte a v).sp = s.sp := by
  unfold State.writeByte; cases s.kindAt a <;> rfl
@[simp] theorem writeByte_d (s : State) (a : Addr) (v : Byte) :
    (s.writeByte a v).d = s.d := by
  unfold State.writeByte; cases s.kindAt a <;> rfl
@[simp] theorem writeByte_db (s : State) (a : Addr) (v : Byte) :
    (s.writeByte a v).db = s.db := by
  unfold State.writeByte; cases s.kindAt a <;> rfl
@[simp] theorem writeByte_pb (s : State) (a : Addr) (v : Byte) :
    (s.writeByte a v).pb = s.pb := by
  unfold State.writeByte; cases s.kindAt a <;> rfl
@[simp] theorem writeByte_pc (s : State) (a : Addr) (v : Byte) :
    (s.writeByte a v).pc = s.pc := by
  unfold State.writeByte; cases s.kindAt a <;> rfl
@[simp] theorem writeByte_p (s : State) (a : Addr) (v : Byte) :
    (s.writeByte a v).p = s.p := by
  unfold State.writeByte; cases s.kindAt a <;> rfl
@[simp] theorem writeByte_e (s : State) (a : Addr) (v : Byte) :
    (s.writeByte a v).e = s.e := by
  unfold State.writeByte; cases s.kindAt a <;> rfl
@[simp] theorem writeByte_runState (s : State) (a : Addr) (v : Byte) :
    (s.writeByte a v).runState = s.runState := by
  unfold State.writeByte; cases s.kindAt a <;> rfl
@[simp] theorem writeByte_nmiPending (s : State) (a : Addr) (v : Byte) :
    (s.writeByte a v).nmiPending = s.nmiPending := by
  unfold State.writeByte; cases s.kindAt a <;> rfl
@[simp] theorem writeByte_abortPending (s : State) (a : Addr) (v : Byte) :
    (s.writeByte a v).abortPending = s.abortPending := by
  unfold State.writeByte; cases s.kindAt a <;> rfl
@[simp] theorem writeByte_memMap (s : State) (a : Addr) (v : Byte) :
    (s.writeByte a v).memMap = s.memMap := by
  unfold State.writeByte; cases s.kindAt a <;> rfl
@[simp] theorem writeByte_schedule (s : State) (a : Addr) (v : Byte) :
    (s.writeByte a v).schedule = s.schedule := by
  unfold State.writeByte; cases s.kindAt a <;> rfl
@[simp] theorem writeByte_copEmuBit4 (s : State) (a : Addr) (v : Byte) :
    (s.writeByte a v).copEmuBit4 = s.copEmuBit4 := by
  unfold State.writeByte; cases s.kindAt a <;> rfl
@[simp] theorem writeByte_abortModelled (s : State) (a : Addr) (v : Byte) :
    (s.writeByte a v).abortModelled = s.abortModelled := by
  unfold State.writeByte; cases s.kindAt a <;> rfl
@[simp] theorem writeByte_emuStackCross (s : State) (a : Addr) (v : Byte) :
    (s.writeByte a v).emuStackCross = s.emuStackCross := by
  unfold State.writeByte; cases s.kindAt a <;> rfl
@[simp] theorem writeByte_wdmMeaning (s : State) (a : Addr) (v : Byte) :
    (s.writeByte a v).wdmMeaning = s.wdmMeaning := by
  unfold State.writeByte; cases s.kindAt a <;> rfl
@[simp] theorem writeByte_iJustChanged (s : State) (a : Addr) (v : Byte) :
    (s.writeByte a v).iJustChanged = s.iJustChanged := by
  unfold State.writeByte; cases s.kindAt a <;> rfl
@[simp] theorem writeByte_tick (s : State) (a : Addr) (v : Byte) :
    (s.writeByte a v).tick = s.tick := by
  unfold State.writeByte; cases s.kindAt a <;> rfl

/-- A byte stored changes memory and the device writes only. -/
theorem writeByte_eq (s : State) (a : Addr) (v : Byte) :
    s.writeByte a v = { s with mem := (s.writeByte a v).mem, deviceOut := (s.writeByte a v).deviceOut } := by
  ext1 <;> simp

@[simp] theorem advance_a (s : State) (n : Nat) : (s.advance n).a = s.a := rfl
@[simp] theorem advance_x (s : State) (n : Nat) : (s.advance n).x = s.x := rfl
@[simp] theorem advance_y (s : State) (n : Nat) : (s.advance n).y = s.y := rfl
@[simp] theorem advance_sp (s : State) (n : Nat) : (s.advance n).sp = s.sp := rfl
@[simp] theorem advance_d (s : State) (n : Nat) : (s.advance n).d = s.d := rfl
@[simp] theorem advance_db (s : State) (n : Nat) : (s.advance n).db = s.db := rfl
@[simp] theorem advance_pb (s : State) (n : Nat) : (s.advance n).pb = s.pb := rfl
@[simp] theorem advance_pc (s : State) (n : Nat) : (s.advance n).pc = s.pc + BitVec.ofNat 16 n := rfl
@[simp] theorem advance_p (s : State) (n : Nat) : (s.advance n).p = s.p := rfl
@[simp] theorem advance_e (s : State) (n : Nat) : (s.advance n).e = s.e := rfl
@[simp] theorem advance_runState (s : State) (n : Nat) : (s.advance n).runState = s.runState := rfl
@[simp] theorem advance_nmiPending (s : State) (n : Nat) : (s.advance n).nmiPending = s.nmiPending := rfl
@[simp] theorem advance_abortPending (s : State) (n : Nat) : (s.advance n).abortPending = s.abortPending := rfl
@[simp] theorem advance_mem (s : State) (n : Nat) : (s.advance n).mem = s.mem := rfl
@[simp] theorem advance_memMap (s : State) (n : Nat) : (s.advance n).memMap = s.memMap := rfl
@[simp] theorem advance_schedule (s : State) (n : Nat) : (s.advance n).schedule = s.schedule := rfl
@[simp] theorem advance_copEmuBit4 (s : State) (n : Nat) : (s.advance n).copEmuBit4 = s.copEmuBit4 := rfl
@[simp] theorem advance_abortModelled (s : State) (n : Nat) : (s.advance n).abortModelled = s.abortModelled := rfl
@[simp] theorem advance_emuStackCross (s : State) (n : Nat) : (s.advance n).emuStackCross = s.emuStackCross := rfl
@[simp] theorem advance_wdmMeaning (s : State) (n : Nat) : (s.advance n).wdmMeaning = s.wdmMeaning := rfl
@[simp] theorem advance_deviceOut (s : State) (n : Nat) : (s.advance n).deviceOut = s.deviceOut := rfl
@[simp] theorem advance_iJustChanged (s : State) (n : Nat) : (s.advance n).iJustChanged = s.iJustChanged := rfl
@[simp] theorem advance_tick (s : State) (n : Nat) : (s.advance n).tick = s.tick := rfl

@[simp] theorem storeAll_a (s : State) (ws : List Store) :
    (s.storeAll ws).a = s.a := by
  induction ws generalizing s with
  | nil => rfl
  | cons w ws ih => exact (ih _).trans (writeByte_a s _ _)
@[simp] theorem storeAll_x (s : State) (ws : List Store) :
    (s.storeAll ws).x = s.x := by
  induction ws generalizing s with
  | nil => rfl
  | cons w ws ih => exact (ih _).trans (writeByte_x s _ _)
@[simp] theorem storeAll_y (s : State) (ws : List Store) :
    (s.storeAll ws).y = s.y := by
  induction ws generalizing s with
  | nil => rfl
  | cons w ws ih => exact (ih _).trans (writeByte_y s _ _)
@[simp] theorem storeAll_sp (s : State) (ws : List Store) :
    (s.storeAll ws).sp = s.sp := by
  induction ws generalizing s with
  | nil => rfl
  | cons w ws ih => exact (ih _).trans (writeByte_sp s _ _)
@[simp] theorem storeAll_d (s : State) (ws : List Store) :
    (s.storeAll ws).d = s.d := by
  induction ws generalizing s with
  | nil => rfl
  | cons w ws ih => exact (ih _).trans (writeByte_d s _ _)
@[simp] theorem storeAll_db (s : State) (ws : List Store) :
    (s.storeAll ws).db = s.db := by
  induction ws generalizing s with
  | nil => rfl
  | cons w ws ih => exact (ih _).trans (writeByte_db s _ _)
@[simp] theorem storeAll_pb (s : State) (ws : List Store) :
    (s.storeAll ws).pb = s.pb := by
  induction ws generalizing s with
  | nil => rfl
  | cons w ws ih => exact (ih _).trans (writeByte_pb s _ _)
@[simp] theorem storeAll_pc (s : State) (ws : List Store) :
    (s.storeAll ws).pc = s.pc := by
  induction ws generalizing s with
  | nil => rfl
  | cons w ws ih => exact (ih _).trans (writeByte_pc s _ _)
@[simp] theorem storeAll_p (s : State) (ws : List Store) :
    (s.storeAll ws).p = s.p := by
  induction ws generalizing s with
  | nil => rfl
  | cons w ws ih => exact (ih _).trans (writeByte_p s _ _)
@[simp] theorem storeAll_e (s : State) (ws : List Store) :
    (s.storeAll ws).e = s.e := by
  induction ws generalizing s with
  | nil => rfl
  | cons w ws ih => exact (ih _).trans (writeByte_e s _ _)
@[simp] theorem storeAll_runState (s : State) (ws : List Store) :
    (s.storeAll ws).runState = s.runState := by
  induction ws generalizing s with
  | nil => rfl
  | cons w ws ih => exact (ih _).trans (writeByte_runState s _ _)
@[simp] theorem storeAll_nmiPending (s : State) (ws : List Store) :
    (s.storeAll ws).nmiPending = s.nmiPending := by
  induction ws generalizing s with
  | nil => rfl
  | cons w ws ih => exact (ih _).trans (writeByte_nmiPending s _ _)
@[simp] theorem storeAll_abortPending (s : State) (ws : List Store) :
    (s.storeAll ws).abortPending = s.abortPending := by
  induction ws generalizing s with
  | nil => rfl
  | cons w ws ih => exact (ih _).trans (writeByte_abortPending s _ _)
@[simp] theorem storeAll_memMap (s : State) (ws : List Store) :
    (s.storeAll ws).memMap = s.memMap := by
  induction ws generalizing s with
  | nil => rfl
  | cons w ws ih => exact (ih _).trans (writeByte_memMap s _ _)
@[simp] theorem storeAll_schedule (s : State) (ws : List Store) :
    (s.storeAll ws).schedule = s.schedule := by
  induction ws generalizing s with
  | nil => rfl
  | cons w ws ih => exact (ih _).trans (writeByte_schedule s _ _)
@[simp] theorem storeAll_copEmuBit4 (s : State) (ws : List Store) :
    (s.storeAll ws).copEmuBit4 = s.copEmuBit4 := by
  induction ws generalizing s with
  | nil => rfl
  | cons w ws ih => exact (ih _).trans (writeByte_copEmuBit4 s _ _)
@[simp] theorem storeAll_abortModelled (s : State) (ws : List Store) :
    (s.storeAll ws).abortModelled = s.abortModelled := by
  induction ws generalizing s with
  | nil => rfl
  | cons w ws ih => exact (ih _).trans (writeByte_abortModelled s _ _)
@[simp] theorem storeAll_emuStackCross (s : State) (ws : List Store) :
    (s.storeAll ws).emuStackCross = s.emuStackCross := by
  induction ws generalizing s with
  | nil => rfl
  | cons w ws ih => exact (ih _).trans (writeByte_emuStackCross s _ _)
@[simp] theorem storeAll_wdmMeaning (s : State) (ws : List Store) :
    (s.storeAll ws).wdmMeaning = s.wdmMeaning := by
  induction ws generalizing s with
  | nil => rfl
  | cons w ws ih => exact (ih _).trans (writeByte_wdmMeaning s _ _)
@[simp] theorem storeAll_iJustChanged (s : State) (ws : List Store) :
    (s.storeAll ws).iJustChanged = s.iJustChanged := by
  induction ws generalizing s with
  | nil => rfl
  | cons w ws ih => exact (ih _).trans (writeByte_iJustChanged s _ _)
@[simp] theorem storeAll_tick (s : State) (ws : List Store) :
    (s.storeAll ws).tick = s.tick := by
  induction ws generalizing s with
  | nil => rfl
  | cons w ws ih => exact (ih _).trans (writeByte_tick s _ _)

/-- Bytes stored change memory and the device writes only. -/
theorem storeAll_eq (s : State) (ws : List Store) :
    s.storeAll ws = { s with mem := (s.storeAll ws).mem, deviceOut := (s.storeAll ws).deviceOut } := by
  ext1 <;> simp

@[simp] theorem pushOrd_a (s : State) (bs : List Byte) : (s.pushOrd bs).a = s.a := storeAll_a s _
@[simp] theorem pushOrd_x (s : State) (bs : List Byte) : (s.pushOrd bs).x = s.x := storeAll_x s _
@[simp] theorem pushOrd_y (s : State) (bs : List Byte) : (s.pushOrd bs).y = s.y := storeAll_y s _
@[simp] theorem pushOrd_sp (s : State) (bs : List Byte) : (s.pushOrd bs).sp = pushedSp (ordDown s.e) s.sp bs := rfl
@[simp] theorem pushOrd_d (s : State) (bs : List Byte) : (s.pushOrd bs).d = s.d := storeAll_d s _
@[simp] theorem pushOrd_db (s : State) (bs : List Byte) : (s.pushOrd bs).db = s.db := storeAll_db s _
@[simp] theorem pushOrd_pb (s : State) (bs : List Byte) : (s.pushOrd bs).pb = s.pb := storeAll_pb s _
@[simp] theorem pushOrd_pc (s : State) (bs : List Byte) : (s.pushOrd bs).pc = s.pc := storeAll_pc s _
@[simp] theorem pushOrd_p (s : State) (bs : List Byte) : (s.pushOrd bs).p = s.p := storeAll_p s _
@[simp] theorem pushOrd_e (s : State) (bs : List Byte) : (s.pushOrd bs).e = s.e := storeAll_e s _
@[simp] theorem pushOrd_runState (s : State) (bs : List Byte) : (s.pushOrd bs).runState = s.runState := storeAll_runState s _
@[simp] theorem pushOrd_nmiPending (s : State) (bs : List Byte) :
    (s.pushOrd bs).nmiPending = s.nmiPending := storeAll_nmiPending s _
@[simp] theorem pushOrd_abortPending (s : State) (bs : List Byte) :
    (s.pushOrd bs).abortPending = s.abortPending := storeAll_abortPending s _
@[simp] theorem pushOrd_mem (s : State) (bs : List Byte) : (s.pushOrd bs).mem = (s.storeAll (s.ordStores bs)).mem := rfl
@[simp] theorem pushOrd_memMap (s : State) (bs : List Byte) : (s.pushOrd bs).memMap = s.memMap := storeAll_memMap s _
@[simp] theorem pushOrd_schedule (s : State) (bs : List Byte) : (s.pushOrd bs).schedule = s.schedule := storeAll_schedule s _
@[simp] theorem pushOrd_copEmuBit4 (s : State) (bs : List Byte) :
    (s.pushOrd bs).copEmuBit4 = s.copEmuBit4 := storeAll_copEmuBit4 s _
@[simp] theorem pushOrd_abortModelled (s : State) (bs : List Byte) :
    (s.pushOrd bs).abortModelled = s.abortModelled := storeAll_abortModelled s _
@[simp] theorem pushOrd_emuStackCross (s : State) (bs : List Byte) :
    (s.pushOrd bs).emuStackCross = s.emuStackCross := storeAll_emuStackCross s _
@[simp] theorem pushOrd_wdmMeaning (s : State) (bs : List Byte) :
    (s.pushOrd bs).wdmMeaning = s.wdmMeaning := storeAll_wdmMeaning s _
@[simp] theorem pushOrd_deviceOut (s : State) (bs : List Byte) :
    (s.pushOrd bs).deviceOut = (s.storeAll (s.ordStores bs)).deviceOut := rfl
@[simp] theorem pushOrd_iJustChanged (s : State) (bs : List Byte) :
    (s.pushOrd bs).iJustChanged = s.iJustChanged := storeAll_iJustChanged s _
@[simp] theorem pushOrd_tick (s : State) (bs : List Byte) : (s.pushOrd bs).tick = s.tick := storeAll_tick s _

@[simp] theorem pushNew_a (s : State) (bs : List Byte) : (s.pushNew bs).a = s.a := storeAll_a s _
@[simp] theorem pushNew_x (s : State) (bs : List Byte) : (s.pushNew bs).x = s.x := storeAll_x s _
@[simp] theorem pushNew_y (s : State) (bs : List Byte) : (s.pushNew bs).y = s.y := storeAll_y s _
@[simp] theorem pushNew_sp (s : State) (bs : List Byte) : (s.pushNew bs).sp = endN s.e (pushedSp newDown s.sp bs) := rfl
@[simp] theorem pushNew_d (s : State) (bs : List Byte) : (s.pushNew bs).d = s.d := storeAll_d s _
@[simp] theorem pushNew_db (s : State) (bs : List Byte) : (s.pushNew bs).db = s.db := storeAll_db s _
@[simp] theorem pushNew_pb (s : State) (bs : List Byte) : (s.pushNew bs).pb = s.pb := storeAll_pb s _
@[simp] theorem pushNew_pc (s : State) (bs : List Byte) : (s.pushNew bs).pc = s.pc := storeAll_pc s _
@[simp] theorem pushNew_p (s : State) (bs : List Byte) : (s.pushNew bs).p = s.p := storeAll_p s _
@[simp] theorem pushNew_e (s : State) (bs : List Byte) : (s.pushNew bs).e = s.e := storeAll_e s _
@[simp] theorem pushNew_runState (s : State) (bs : List Byte) : (s.pushNew bs).runState = s.runState := storeAll_runState s _
@[simp] theorem pushNew_nmiPending (s : State) (bs : List Byte) :
    (s.pushNew bs).nmiPending = s.nmiPending := storeAll_nmiPending s _
@[simp] theorem pushNew_abortPending (s : State) (bs : List Byte) :
    (s.pushNew bs).abortPending = s.abortPending := storeAll_abortPending s _
@[simp] theorem pushNew_mem (s : State) (bs : List Byte) : (s.pushNew bs).mem = (s.storeAll (s.newStores bs)).mem := rfl
@[simp] theorem pushNew_memMap (s : State) (bs : List Byte) : (s.pushNew bs).memMap = s.memMap := storeAll_memMap s _
@[simp] theorem pushNew_schedule (s : State) (bs : List Byte) : (s.pushNew bs).schedule = s.schedule := storeAll_schedule s _
@[simp] theorem pushNew_copEmuBit4 (s : State) (bs : List Byte) :
    (s.pushNew bs).copEmuBit4 = s.copEmuBit4 := storeAll_copEmuBit4 s _
@[simp] theorem pushNew_abortModelled (s : State) (bs : List Byte) :
    (s.pushNew bs).abortModelled = s.abortModelled := storeAll_abortModelled s _
@[simp] theorem pushNew_emuStackCross (s : State) (bs : List Byte) :
    (s.pushNew bs).emuStackCross = s.emuStackCross := storeAll_emuStackCross s _
@[simp] theorem pushNew_wdmMeaning (s : State) (bs : List Byte) :
    (s.pushNew bs).wdmMeaning = s.wdmMeaning := storeAll_wdmMeaning s _
@[simp] theorem pushNew_deviceOut (s : State) (bs : List Byte) :
    (s.pushNew bs).deviceOut = (s.storeAll (s.newStores bs)).deviceOut := rfl
@[simp] theorem pushNew_iJustChanged (s : State) (bs : List Byte) :
    (s.pushNew bs).iJustChanged = s.iJustChanged := storeAll_iJustChanged s _
@[simp] theorem pushNew_tick (s : State) (bs : List Byte) : (s.pushNew bs).tick = s.tick := storeAll_tick s _

@[simp] theorem endPull_a (s : State) : s.endPull.a = s.a := rfl
@[simp] theorem endPull_x (s : State) : s.endPull.x = s.x := rfl
@[simp] theorem endPull_y (s : State) : s.endPull.y = s.y := rfl
@[simp] theorem endPull_sp (s : State) : s.endPull.sp = endN s.e s.sp := rfl
@[simp] theorem endPull_d (s : State) : s.endPull.d = s.d := rfl
@[simp] theorem endPull_db (s : State) : s.endPull.db = s.db := rfl
@[simp] theorem endPull_pb (s : State) : s.endPull.pb = s.pb := rfl
@[simp] theorem endPull_pc (s : State) : s.endPull.pc = s.pc := rfl
@[simp] theorem endPull_p (s : State) : s.endPull.p = s.p := rfl
@[simp] theorem endPull_e (s : State) : s.endPull.e = s.e := rfl
@[simp] theorem endPull_runState (s : State) : s.endPull.runState = s.runState := rfl
@[simp] theorem endPull_nmiPending (s : State) : s.endPull.nmiPending = s.nmiPending := rfl
@[simp] theorem endPull_abortPending (s : State) : s.endPull.abortPending = s.abortPending := rfl
@[simp] theorem endPull_mem (s : State) : s.endPull.mem = s.mem := rfl
@[simp] theorem endPull_memMap (s : State) : s.endPull.memMap = s.memMap := rfl
@[simp] theorem endPull_schedule (s : State) : s.endPull.schedule = s.schedule := rfl
@[simp] theorem endPull_copEmuBit4 (s : State) : s.endPull.copEmuBit4 = s.copEmuBit4 := rfl
@[simp] theorem endPull_abortModelled (s : State) : s.endPull.abortModelled = s.abortModelled := rfl
@[simp] theorem endPull_emuStackCross (s : State) : s.endPull.emuStackCross = s.emuStackCross := rfl
@[simp] theorem endPull_wdmMeaning (s : State) : s.endPull.wdmMeaning = s.wdmMeaning := rfl
@[simp] theorem endPull_deviceOut (s : State) : s.endPull.deviceOut = s.deviceOut := rfl
@[simp] theorem endPull_iJustChanged (s : State) : s.endPull.iJustChanged = s.iJustChanged := rfl
@[simp] theorem endPull_tick (s : State) : s.endPull.tick = s.tick := rfl

@[simp] theorem normalize_a (s : State) : s.normalize.a = s.a := rfl
@[simp] theorem normalize_x (s : State) : s.normalize.x = if flagIn s.normalize.p .x then clearHi s.x else s.x := rfl
@[simp] theorem normalize_y (s : State) : s.normalize.y = if flagIn s.normalize.p .x then clearHi s.y else s.y := rfl
@[simp] theorem normalize_sp (s : State) : s.normalize.sp = if s.e then wordOf 0x01 (loByte s.sp) else s.sp := rfl
@[simp] theorem normalize_d (s : State) : s.normalize.d = s.d := rfl
@[simp] theorem normalize_db (s : State) : s.normalize.db = s.db := rfl
@[simp] theorem normalize_pb (s : State) : s.normalize.pb = s.pb := rfl
@[simp] theorem normalize_pc (s : State) : s.normalize.pc = s.pc := rfl
@[simp] theorem normalize_p (s : State) : s.normalize.p = if s.e then setFlag (setFlag s.p .m true) .x true else s.p := rfl
@[simp] theorem normalize_e (s : State) : s.normalize.e = s.e := rfl
@[simp] theorem normalize_runState (s : State) : s.normalize.runState = s.runState := rfl
@[simp] theorem normalize_nmiPending (s : State) : s.normalize.nmiPending = s.nmiPending := rfl
@[simp] theorem normalize_abortPending (s : State) : s.normalize.abortPending = s.abortPending := rfl
@[simp] theorem normalize_mem (s : State) : s.normalize.mem = s.mem := rfl
@[simp] theorem normalize_memMap (s : State) : s.normalize.memMap = s.memMap := rfl
@[simp] theorem normalize_schedule (s : State) : s.normalize.schedule = s.schedule := rfl
@[simp] theorem normalize_copEmuBit4 (s : State) : s.normalize.copEmuBit4 = s.copEmuBit4 := rfl
@[simp] theorem normalize_abortModelled (s : State) : s.normalize.abortModelled = s.abortModelled := rfl
@[simp] theorem normalize_emuStackCross (s : State) : s.normalize.emuStackCross = s.emuStackCross := rfl
@[simp] theorem normalize_wdmMeaning (s : State) : s.normalize.wdmMeaning = s.wdmMeaning := rfl
@[simp] theorem normalize_deviceOut (s : State) : s.normalize.deviceOut = s.deviceOut := rfl
@[simp] theorem normalize_iJustChanged (s : State) : s.normalize.iJustChanged = s.iJustChanged := rfl
@[simp] theorem normalize_tick (s : State) : s.normalize.tick = s.tick := rfl

@[simp] theorem begun_a (s : State) : s.begun.a = s.a := rfl
@[simp] theorem begun_x (s : State) : s.begun.x = s.x := rfl
@[simp] theorem begun_y (s : State) : s.begun.y = s.y := rfl
@[simp] theorem begun_sp (s : State) : s.begun.sp = s.sp := rfl
@[simp] theorem begun_d (s : State) : s.begun.d = s.d := rfl
@[simp] theorem begun_db (s : State) : s.begun.db = s.db := rfl
@[simp] theorem begun_pb (s : State) : s.begun.pb = s.pb := rfl
@[simp] theorem begun_pc (s : State) : s.begun.pc = s.pc := rfl
@[simp] theorem begun_p (s : State) : s.begun.p = s.p := rfl
@[simp] theorem begun_e (s : State) : s.begun.e = s.e := rfl
@[simp] theorem begun_runState (s : State) : s.begun.runState = s.runState := rfl
@[simp] theorem begun_nmiPending (s : State) :
    s.begun.nmiPending = if s.runState = .stopped then s.nmiPending else s.nmiNow := rfl
@[simp] theorem begun_abortPending (s : State) : s.begun.abortPending = s.abortPending := rfl
@[simp] theorem begun_mem (s : State) : s.begun.mem = s.mem := rfl
@[simp] theorem begun_memMap (s : State) : s.begun.memMap = s.memMap := rfl
@[simp] theorem begun_schedule (s : State) : s.begun.schedule = s.schedule.tail := rfl
@[simp] theorem begun_copEmuBit4 (s : State) : s.begun.copEmuBit4 = s.copEmuBit4 := rfl
@[simp] theorem begun_abortModelled (s : State) : s.begun.abortModelled = s.abortModelled := rfl
@[simp] theorem begun_emuStackCross (s : State) : s.begun.emuStackCross = s.emuStackCross := rfl
@[simp] theorem begun_wdmMeaning (s : State) : s.begun.wdmMeaning = s.wdmMeaning := rfl
@[simp] theorem begun_deviceOut (s : State) : s.begun.deviceOut = s.deviceOut := rfl
@[simp] theorem begun_iJustChanged (s : State) : s.begun.iJustChanged = false := rfl
@[simp] theorem begun_tick (s : State) : s.begun.tick = s.tick + 1 := rfl

@[simp] theorem takeInterrupt_a (s : State) (k : Interrupt) (ra : Word) (bit4 : Bool) :
    (s.takeInterrupt k ra bit4).a = s.a := pushOrd_a s _
@[simp] theorem takeInterrupt_x (s : State) (k : Interrupt) (ra : Word) (bit4 : Bool) :
    (s.takeInterrupt k ra bit4).x = s.x := pushOrd_x s _
@[simp] theorem takeInterrupt_y (s : State) (k : Interrupt) (ra : Word) (bit4 : Bool) :
    (s.takeInterrupt k ra bit4).y = s.y := pushOrd_y s _
@[simp] theorem takeInterrupt_sp (s : State) (k : Interrupt) (ra : Word) (bit4 : Bool) :
    (s.takeInterrupt k ra bit4).sp = pushedSp (ordDown s.e) s.sp (s.interruptFrame ra bit4) := rfl
@[simp] theorem takeInterrupt_d (s : State) (k : Interrupt) (ra : Word) (bit4 : Bool) :
    (s.takeInterrupt k ra bit4).d = s.d := pushOrd_d s _
@[simp] theorem takeInterrupt_db (s : State) (k : Interrupt) (ra : Word) (bit4 : Bool) :
    (s.takeInterrupt k ra bit4).db = s.db := pushOrd_db s _
@[simp] theorem takeInterrupt_pb (s : State) (k : Interrupt) (ra : Word) (bit4 : Bool) :
    (s.takeInterrupt k ra bit4).pb = 0 := rfl
@[simp] theorem takeInterrupt_pc (s : State) (k : Interrupt) (ra : Word) (bit4 : Bool) :
    (s.takeInterrupt k ra bit4).pc = (s.pushOrd (s.interruptFrame ra bit4)).readVector (vectorOf k s.e) := rfl
@[simp] theorem takeInterrupt_p (s : State) (k : Interrupt) (ra : Word) (bit4 : Bool) :
    (s.takeInterrupt k ra bit4).p = setFlag (setFlag s.p .i true) .d false := rfl
@[simp] theorem takeInterrupt_e (s : State) (k : Interrupt) (ra : Word) (bit4 : Bool) :
    (s.takeInterrupt k ra bit4).e = s.e := pushOrd_e s _
@[simp] theorem takeInterrupt_runState (s : State) (k : Interrupt) (ra : Word) (bit4 : Bool) :
    (s.takeInterrupt k ra bit4).runState = s.runState := pushOrd_runState s _
@[simp] theorem takeInterrupt_nmiPending (s : State) (k : Interrupt) (ra : Word) (bit4 : Bool) :
    (s.takeInterrupt k ra bit4).nmiPending = s.nmiPending := pushOrd_nmiPending s _
@[simp] theorem takeInterrupt_abortPending (s : State) (k : Interrupt) (ra : Word) (bit4 : Bool) :
    (s.takeInterrupt k ra bit4).abortPending = s.abortPending := pushOrd_abortPending s _
@[simp] theorem takeInterrupt_mem (s : State) (k : Interrupt) (ra : Word) (bit4 : Bool) :
    (s.takeInterrupt k ra bit4).mem = (s.pushOrd (s.interruptFrame ra bit4)).mem := rfl
@[simp] theorem takeInterrupt_memMap (s : State) (k : Interrupt) (ra : Word) (bit4 : Bool) :
    (s.takeInterrupt k ra bit4).memMap = s.memMap := pushOrd_memMap s _
@[simp] theorem takeInterrupt_schedule (s : State) (k : Interrupt) (ra : Word) (bit4 : Bool) :
    (s.takeInterrupt k ra bit4).schedule = s.schedule := pushOrd_schedule s _
@[simp] theorem takeInterrupt_copEmuBit4 (s : State) (k : Interrupt) (ra : Word) (bit4 : Bool) :
    (s.takeInterrupt k ra bit4).copEmuBit4 = s.copEmuBit4 := pushOrd_copEmuBit4 s _
@[simp] theorem takeInterrupt_abortModelled (s : State) (k : Interrupt) (ra : Word) (bit4 : Bool) :
    (s.takeInterrupt k ra bit4).abortModelled = s.abortModelled := pushOrd_abortModelled s _
@[simp] theorem takeInterrupt_emuStackCross (s : State) (k : Interrupt) (ra : Word) (bit4 : Bool) :
    (s.takeInterrupt k ra bit4).emuStackCross = s.emuStackCross := pushOrd_emuStackCross s _
@[simp] theorem takeInterrupt_wdmMeaning (s : State) (k : Interrupt) (ra : Word) (bit4 : Bool) :
    (s.takeInterrupt k ra bit4).wdmMeaning = s.wdmMeaning := pushOrd_wdmMeaning s _
@[simp] theorem takeInterrupt_deviceOut (s : State) (k : Interrupt) (ra : Word) (bit4 : Bool) :
    (s.takeInterrupt k ra bit4).deviceOut = (s.pushOrd (s.interruptFrame ra bit4)).deviceOut := rfl
@[simp] theorem takeInterrupt_iJustChanged (s : State) (k : Interrupt) (ra : Word) (bit4 : Bool) :
    (s.takeInterrupt k ra bit4).iJustChanged = s.iJustChanged := pushOrd_iJustChanged s _
@[simp] theorem takeInterrupt_tick (s : State) (k : Interrupt) (ra : Word) (bit4 : Bool) :
    (s.takeInterrupt k ra bit4).tick = s.tick := pushOrd_tick s _

@[simp] theorem pull8_fst (s : State) (up : Word → Word) : (s.pull8 up).1 = s.readByte (bank0 (up s.sp)) := rfl

@[simp] theorem pull8_snd (s : State) (up : Word → Word) : (s.pull8 up).2 = { s with sp := up s.sp } := rfl

@[simp] theorem pull16_fst (s : State) (up : Word → Word) :
    (s.pull16 up).1 = wordOf (s.readByte (bank0 (up (up s.sp)))) (s.readByte (bank0 (up s.sp))) := rfl

@[simp] theorem pull16_snd (s : State) (up : Word → Word) : (s.pull16 up).2 = { s with sp := up (up s.sp) } := rfl

end Sys2Proof.Machine
end

