-- ==== Sys2Proof/Laws/Ops.lean ====
section
/-! SUPPORT. For each shared operation, once, what it can do. -/

namespace Sys2Proof.Machine

/-! ## Reads and stores -/

/-- A read looks at the memory, the memory map and the counter only. -/
theorem busRead_congr {s t : State} (hm : t.mem = s.mem) (hp : t.memMap = s.memMap) (ht : t.tick = s.tick) (k : AccessKind)
    (a : Addr) : t.busRead k a = s.busRead k a := by
  simp only [State.busRead, State.kindAt, hm, hp, ht]

theorem kindAt_congr {s t : State} (hp : t.memMap = s.memMap) (a : Addr) : t.kindAt a = s.kindAt a := by
  simp only [State.kindAt, hp]

/-- Moving PC past the instruction changes no read. -/
@[simp] theorem busRead_advance (s : State) (n : Nat) (k : AccessKind) (a : Addr) :
    (s.advance n).busRead k a = s.busRead k a := rfl

@[simp] theorem readByte_advance (s : State) (n : Nat) (a : Addr) : (s.advance n).readByte a = s.readByte a := rfl

@[simp] theorem kindAt_writeByte (s : State) (a b : Addr) (v : Byte) : (s.writeByte a v).kindAt b = s.kindAt b :=
  kindAt_congr (writeByte_memMap s a v) b

@[simp] theorem kindAt_storeAll (s : State) (ws : List Store) (b : Addr) : (s.storeAll ws).kindAt b = s.kindAt b :=
  kindAt_congr (storeAll_memMap s ws) b

/-- A byte stored leaves the memory at another address alone, and all memory where its address is not RAM. -/
theorem read_writeByte_of (s : State) (a b : Addr) (v : Byte) (h : b ≠ a ∨ s.kindAt b ≠ .ram) :
    Memory.read (s.writeByte a v).mem b.toNat = Memory.read s.mem b.toNat := by
  unfold State.writeByte
  cases ha : s.kindAt a with
  | ram =>
    refine Memory.read_write_ne _ _ _ _ (fun e => ?_)
    have e := BitVec.eq_of_toNat_eq e
    rcases h with h | h
    · exact h e
    · exact h (e ▸ ha)
  | rom => rfl
  | device => rfl
  | nothing => rfl

/-- A byte stored leaves every read of another address alone, and every read of an address that is not RAM. -/
theorem busRead_writeByte_of (s : State) (a b : Addr) (v : Byte) (k : AccessKind) (h : b ≠ a ∨ s.kindAt b ≠ .ram) :
    (s.writeByte a v).busRead k b = s.busRead k b := by
  simp only [State.busRead, kindAt_writeByte, read_writeByte_of s a b v h, writeByte_tick]

/-- A byte stored to RAM is read back. -/
theorem readByte_writeByte_self {s : State} (hm : s.memOk) {a : Addr} (v : Byte) (h : s.kindAt a = .ram) :
    (s.writeByte a v).readByte a = v := by
  unfold State.readByte State.busRead
  rw [kindAt_writeByte, h]
  simp [State.writeByte, h, Memory.read_write_self hm]

theorem writeByte_memOk {s : State} (hm : s.memOk) (a : Addr) (v : Byte) : (s.writeByte a v).memOk := by
  unfold State.memOk State.writeByte
  cases s.kindAt a with
  | ram => exact Memory.wf_write hm a.isLt v
  | rom => exact hm
  | device => exact hm
  | nothing => exact hm

theorem storeAll_memOk {s : State} (hm : s.memOk) (ws : List Store) : (s.storeAll ws).memOk := by
  induction ws generalizing s with
  | nil => exact hm
  | cons w ws ih => exact ih (writeByte_memOk hm w.1 w.2)

/-- Bytes stored leave every read of another address alone, and every read of an address that is not RAM. -/
theorem busRead_storeAll_of (s : State) (ws : List Store) (k : AccessKind) (b : Addr)
    (h : b ∉ ws.map Prod.fst ∨ s.kindAt b ≠ .ram) : (s.storeAll ws).busRead k b = s.busRead k b := by
  induction ws generalizing s with
  | nil => rfl
  | cons w ws ih =>
    simp only [List.map_cons, List.mem_cons, not_or] at h
    refine (ih (s.writeByte w.1 w.2) ?_).trans (busRead_writeByte_of s w.1 b w.2 k ?_)
    · rw [kindAt_writeByte]; exact h.imp And.right id
    · exact h.imp And.left id

/-- Memory outside the stored addresses, and memory that is not RAM, keeps its bytes. -/
theorem read_storeAll_of (s : State) (ws : List Store) (b : Addr) (h : b ∉ ws.map Prod.fst ∨ s.kindAt b ≠ .ram) :
    Memory.read (s.storeAll ws).mem b.toNat = Memory.read s.mem b.toNat := by
  induction ws generalizing s with
  | nil => rfl
  | cons w ws ih =>
    simp only [List.map_cons, List.mem_cons, not_or] at h
    refine (ih (s.writeByte w.1 w.2) ?_).trans ?_
    · rw [kindAt_writeByte]; exact h.imp And.right id
    · exact read_writeByte_of s w.1 b w.2 (h.imp And.left id)

/-- What the platform has seen after a byte stored. -/
theorem writeByte_deviceOut (s : State) (a : Addr) (v : Byte) :
    (s.writeByte a v).deviceOut = s.deviceOut ++ if s.kindAt a = .device then [(a.toNat, v)] else [] := by
  unfold State.writeByte
  cases s.kindAt a <;> simp

/-- What a list of stores to different addresses does. -/
theorem afterStores_storeAll {s : State} (hm : s.memOk) {ws : List Store} (hd : (ws.map Prod.fst).Nodup) :
    s.afterStores (s.storeAll ws) ws := by
  refine ⟨fun k a h => busRead_storeAll_of s ws k a (.inl h), ?_, fun k a h => busRead_storeAll_of s ws k a (.inr h), ?_⟩
  · induction ws generalizing s with
    | nil => intro w hw; cases hw
    | cons v ws ih =>
      intro w hw hk
      rw [List.map_cons, List.nodup_cons] at hd
      rcases List.mem_cons.1 hw with rfl | hw
      · exact (busRead_storeAll_of _ ws .data _ (.inl hd.1)).trans (readByte_writeByte_self hm _ hk)
      · exact ih (writeByte_memOk hm v.1 v.2) hd.2 w hw (by rw [kindAt_writeByte]; exact hk)
  · clear hm hd
    induction ws generalizing s with
    | nil => simp [State.storeAll]
    | cons v ws ih =>
      rw [State.storeAll, ih, writeByte_deviceOut]
      simp only [kindAt_writeByte, List.filter_cons]
      by_cases h : s.kindAt v.1 = .device <;> simp [h]

/-- The same for a state that differs from `s` and from the result only outside memory, map, device writes and counter. -/
theorem afterStores_congr {s t t' : State} {ws : List Store} (h : s.afterStores t ws) (hm : t'.mem = t.mem)
    (hp : t'.memMap = t.memMap) (hd : t'.deviceOut = t.deviceOut) (ht : t'.tick = t.tick) : s.afterStores t' ws := by
  obtain ⟨h1, h2, h3, h4⟩ := h
  refine ⟨fun k a ha => ?_, fun w hw hk => ?_, fun k a ha => ?_, hd.trans h4⟩
  · rw [busRead_congr hm hp ht, h1 k a ha]
  · exact (busRead_congr hm hp ht .data w.1).trans (h2 w hw hk)
  · rw [busRead_congr hm hp ht, h3 k a ha]

/-- Stores look at memory, map and device writes only. -/
theorem storeAll_congr {s t : State} (hm : t.mem = s.mem) (hp : t.memMap = s.memMap) (hd : t.deviceOut = s.deviceOut)
    (ws : List Store) : (t.storeAll ws).mem = (s.storeAll ws).mem ∧ (t.storeAll ws).deviceOut = (s.storeAll ws).deviceOut := by
  induction ws generalizing s t with
  | nil => exact ⟨hm, hd⟩
  | cons w ws ih =>
    refine ih ?_ (by simp [hp]) ?_ <;>
      simp only [State.writeByte, kindAt_congr hp w.1] <;> cases s.kindAt w.1 <;> simp [hm, hd]

/-! ## The hazard of R240 -/

theorem hitsOwn_eq_false {s : State} {n : Nat} {ws : List Store} :
    s.hitsOwn n ws = false ↔ s.clearOfOwn n (ws.map Prod.fst) := by
  simp [State.hitsOwn, State.clearOfOwn]

/-- An instruction that ends with `finish` answers that state where no store falls on its own bytes, and is refused elsewhere. -/
theorem finish_of_clear {s : State} {n : Nat} {ws : List Store} (h : s.clearOfOwn n (ws.map Prod.fst)) (t : State) :
    s.finish n ws t = .next t := by
  simp [State.finish, hitsOwn_eq_false.2 h]

theorem finish_of_hit {s : State} {n : Nat} {ws : List Store} (h : ¬ s.clearOfOwn n (ws.map Prod.fst)) (t : State) :
    s.finish n ws t = .refused .selfOverwrite := by
  have : s.hitsOwn n ws = true := by
    cases e : s.hitsOwn n ws
    · exact absurd (hitsOwn_eq_false.1 e) h
    · rfl
  simp [State.finish, this]

theorem finish_eq_next {s : State} {n : Nat} {ws : List Store} {t u : State} :
    s.finish n ws t = .next u ↔ s.clearOfOwn n (ws.map Prod.fst) ∧ u = t := by
  by_cases h : s.clearOfOwn n (ws.map Prod.fst)
  · rw [finish_of_clear h]
    exact ⟨fun e => ⟨h, (Host.Outcome.next.inj e).symm⟩, fun e => e.2 ▸ rfl⟩
  · rw [finish_of_hit h]
    exact ⟨(by intro e; cases e), fun e => absurd e.1 h⟩

/-! ## The open parameter of R63 and R66 -/

/-- An execution that is no open case, or whose open cases are as described, has its outcome. -/
theorem unlessCrossing_of {s : State} {crosses : Bool} (h : crosses = false ∨ s.emuStackCross = .described) (r : Result) :
    s.unlessCrossing crosses r = r := by
  rcases h with h | h <;> simp [State.unlessCrossing, h]

/-- An open case is refused where the parameter says so. -/
theorem unlessCrossing_of_refuse {s : State} {crosses : Bool} (hc : crosses = true) (h : s.emuStackCross = .refuse) (r : Result) :
    s.unlessCrossing crosses r = .refused .stackLeavesPageOne := by
  simp [State.unlessCrossing, hc, h]

theorem unlessCrossing_eq_next {s u : State} {crosses : Bool} {r : Result} :
    s.unlessCrossing crosses r = .next u ↔ (crosses = false ∨ s.emuStackCross = .described) ∧ r = .next u := by
  by_cases h : crosses = false ∨ s.emuStackCross = .described
  · simp [unlessCrossing_of h, h]
  · have hc : crosses = true := by cases crosses <;> simp_all
    have hr : s.emuStackCross = .refuse := by cases hs : s.emuStackCross <;> simp_all
    rw [unlessCrossing_of_refuse hc hr]
    simp [hc, hr]

/-- In native mode no new-style access is an open case. -/
theorem pushCrosses_native {s : State} (h : s.e = false) (n : Nat) : s.pushCrosses n = false := by simp [State.pushCrosses, h]

theorem pullCrosses_native {s : State} (h : s.e = false) (n : Nat) : s.pullCrosses n = false := by simp [State.pullCrosses, h]

theorem dirAddrOpen_native {s : State} (h : s.e = false) (dp : Byte) : s.dirAddrOpen dp = false := by
  simp [State.dirAddrOpen, h]

/-! ## The stack -/

theorem pushOrd_memOk {s : State} (hm : s.memOk) (bs : List Byte) : (s.pushOrd bs).memOk := storeAll_memOk hm _

theorem pushNew_memOk {s : State} (hm : s.memOk) (bs : List Byte) : (s.pushNew bs).memOk := storeAll_memOk hm _

/-- In emulation mode ordinary pushes leave SH alone. -/
theorem hiByte_ordDown (sp : Word) : hiByte (ordDown true sp) = hiByte sp := by simp [ordDown]

theorem hiByte_ordUp (sp : Word) : hiByte (ordUp true sp) = hiByte sp := by simp [ordUp]

theorem hiByte_pushedSp_ord (sp : Word) (bs : List Byte) : hiByte (pushedSp (ordDown true) sp bs) = hiByte sp := by
  induction bs generalizing sp with
  | nil => rfl
  | cons b bs ih => exact (ih _).trans (hiByte_ordDown sp)

theorem hiByte_endN (sp : Word) : hiByte (endN true sp) = 0x01 := by simp [endN]

/-- What an index register pulls, and that only S moves. -/
@[simp] theorem pullIndex_fst (s : State) :
    s.pullIndex.1 = if s.flag .x then wordOf 0 (s.readByte (bank0 (ordUp s.e s.sp)))
      else wordOf (s.readByte (bank0 (ordUp s.e (ordUp s.e s.sp)))) (s.readByte (bank0 (ordUp s.e s.sp))) := by
  unfold State.pullIndex
  split <;> rfl

@[simp] theorem pullIndex_snd (s : State) :
    s.pullIndex.2 = { s with sp := if s.flag .x then ordUp s.e s.sp else ordUp s.e (ordUp s.e s.sp) } := by
  unfold State.pullIndex
  split <;> rfl

/-! ## Taking an exception -/

theorem takeInterrupt_memOk {s : State} (hm : s.memOk) (k : Interrupt) (ra : Word) (bit4 : Bool) :
    (s.takeInterrupt k ra bit4).memOk := pushOrd_memOk hm _

/-- Where the frame of an exception goes, and that nothing else of memory changes. -/
theorem takeInterrupt_afterStores {s : State} (hm : s.memOk) (k : Interrupt) (ra : Word) (bit4 : Bool)
    (hd : ((s.ordStores (s.interruptFrame ra bit4)).map Prod.fst).Nodup) :
    s.afterStores (s.takeInterrupt k ra bit4) (s.ordStores (s.interruptFrame ra bit4)) :=
  afterStores_congr (afterStores_storeAll hm hd) rfl (by simp) rfl (by simp)

/-- The pc of the handler is the word at the vector, read with the frame in memory. -/
theorem takeInterrupt_vector (s : State) (k : Interrupt) (ra : Word) (bit4 : Bool) :
    (s.takeInterrupt k ra bit4).pc = (s.takeInterrupt k ra bit4).readVector (vectorOf k s.e) := by
  have h : ∀ a, (s.takeInterrupt k ra bit4).busRead .vector a = (s.pushOrd (s.interruptFrame ra bit4)).busRead .vector a :=
    fun a => busRead_congr rfl (by simp) (by simp) .vector a
  simp only [takeInterrupt_pc, State.readVector, h]

/-! ## Reset -/

theorem resetEntry_memOk {s : State} (hm : s.memOk) : s.resetEntry.memOk := hm

theorem cutReset_memOk {s t : State} (hs : s.memOk) (ht : t.memOk) : (s.cutReset t).memOk :=
  (Memory.cut_spec _ hs ht).1

theorem reset_pc : State.reset.pc = State.reset.readVector 0xFFFC := by decide

end Sys2Proof.Machine
end

