-- ==== Sys2Proof/Laws/PerInstr.lean ====
section
/-! SUPPORT. The shape of the encoding, instruction by instruction: a statement about the instruction as syntax. -/

namespace Sys2Proof.Laws.EncodedShape

/-- The encoding starts with the opcode byte of R85 and has the length of R85, from 1 to 4 bytes; the opcode byte, followed by
anything, decodes. -/
def Statement (i : Instr) : Prop :=
  (encode i).head? = some i.opcode ∧ (encode i).length = i.length ∧ 1 ≤ i.length ∧ i.length ≤ 4 ∧
    ∀ b1 b2 b3, ∃ j, decode i.opcode b1 b2 b3 = .ok j ∧ j.opcode = i.opcode

theorem cop (imm8 : Byte) : Statement (.cop imm8) :=
  ⟨rfl, rfl, Nat.le_of_ble_eq_true rfl, Nat.le_of_ble_eq_true rfl, fun _ _ _ => ⟨_, rfl, rfl⟩⟩

theorem tsbDp (dp : Byte) : Statement (.tsbDp dp) :=
  ⟨rfl, rfl, Nat.le_of_ble_eq_true rfl, Nat.le_of_ble_eq_true rfl, fun _ _ _ => ⟨_, rfl, rfl⟩⟩

theorem phd : Statement .phd :=
  ⟨rfl, rfl, Nat.le_of_ble_eq_true rfl, Nat.le_of_ble_eq_true rfl, fun _ _ _ => ⟨_, rfl, rfl⟩⟩

theorem tsbAbs (abs : Word) : Statement (.tsbAbs abs) :=
  ⟨rfl, rfl, Nat.le_of_ble_eq_true rfl, Nat.le_of_ble_eq_true rfl, fun _ _ _ => ⟨_, rfl, rfl⟩⟩

theorem trbDp (dp : Byte) : Statement (.trbDp dp) :=
  ⟨rfl, rfl, Nat.le_of_ble_eq_true rfl, Nat.le_of_ble_eq_true rfl, fun _ _ _ => ⟨_, rfl, rfl⟩⟩

theorem tcs : Statement .tcs :=
  ⟨rfl, rfl, Nat.le_of_ble_eq_true rfl, Nat.le_of_ble_eq_true rfl, fun _ _ _ => ⟨_, rfl, rfl⟩⟩

theorem trbAbs (abs : Word) : Statement (.trbAbs abs) :=
  ⟨rfl, rfl, Nat.le_of_ble_eq_true rfl, Nat.le_of_ble_eq_true rfl, fun _ _ _ => ⟨_, rfl, rfl⟩⟩

theorem jsl (long : Addr) : Statement (.jsl long) :=
  ⟨rfl, rfl, Nat.le_of_ble_eq_true rfl, Nat.le_of_ble_eq_true rfl, fun _ _ _ => ⟨_, rfl, rfl⟩⟩

theorem pld : Statement .pld :=
  ⟨rfl, rfl, Nat.le_of_ble_eq_true rfl, Nat.le_of_ble_eq_true rfl, fun _ _ _ => ⟨_, rfl, rfl⟩⟩

theorem tsc : Statement .tsc :=
  ⟨rfl, rfl, Nat.le_of_ble_eq_true rfl, Nat.le_of_ble_eq_true rfl, fun _ _ _ => ⟨_, rfl, rfl⟩⟩

theorem wdm (imm8 : Byte) : Statement (.wdm imm8) :=
  ⟨rfl, rfl, Nat.le_of_ble_eq_true rfl, Nat.le_of_ble_eq_true rfl, fun _ _ _ => ⟨_, rfl, rfl⟩⟩

theorem mvp (dstbank srcbank : Byte) : Statement (.mvp dstbank srcbank) :=
  ⟨rfl, rfl, Nat.le_of_ble_eq_true rfl, Nat.le_of_ble_eq_true rfl, fun _ _ _ => ⟨_, rfl, rfl⟩⟩

theorem phk : Statement .phk :=
  ⟨rfl, rfl, Nat.le_of_ble_eq_true rfl, Nat.le_of_ble_eq_true rfl, fun _ _ _ => ⟨_, rfl, rfl⟩⟩

theorem mvn (dstbank srcbank : Byte) : Statement (.mvn dstbank srcbank) :=
  ⟨rfl, rfl, Nat.le_of_ble_eq_true rfl, Nat.le_of_ble_eq_true rfl, fun _ _ _ => ⟨_, rfl, rfl⟩⟩

theorem phy : Statement .phy :=
  ⟨rfl, rfl, Nat.le_of_ble_eq_true rfl, Nat.le_of_ble_eq_true rfl, fun _ _ _ => ⟨_, rfl, rfl⟩⟩

theorem tcd : Statement .tcd :=
  ⟨rfl, rfl, Nat.le_of_ble_eq_true rfl, Nat.le_of_ble_eq_true rfl, fun _ _ _ => ⟨_, rfl, rfl⟩⟩

theorem per (rel16 : Int) : Statement (.per rel16) :=
  ⟨rfl, rfl, Nat.le_of_ble_eq_true rfl, Nat.le_of_ble_eq_true rfl, fun _ _ _ => ⟨_, rfl, rfl⟩⟩

theorem stzDp (dp : Byte) : Statement (.stzDp dp) :=
  ⟨rfl, rfl, Nat.le_of_ble_eq_true rfl, Nat.le_of_ble_eq_true rfl, fun _ _ _ => ⟨_, rfl, rfl⟩⟩

theorem rtl : Statement .rtl :=
  ⟨rfl, rfl, Nat.le_of_ble_eq_true rfl, Nat.le_of_ble_eq_true rfl, fun _ _ _ => ⟨_, rfl, rfl⟩⟩

theorem stzDpX (dp : Byte) : Statement (.stzDpX dp) :=
  ⟨rfl, rfl, Nat.le_of_ble_eq_true rfl, Nat.le_of_ble_eq_true rfl, fun _ _ _ => ⟨_, rfl, rfl⟩⟩

theorem ply : Statement .ply :=
  ⟨rfl, rfl, Nat.le_of_ble_eq_true rfl, Nat.le_of_ble_eq_true rfl, fun _ _ _ => ⟨_, rfl, rfl⟩⟩

theorem tdc : Statement .tdc :=
  ⟨rfl, rfl, Nat.le_of_ble_eq_true rfl, Nat.le_of_ble_eq_true rfl, fun _ _ _ => ⟨_, rfl, rfl⟩⟩

theorem bra (rel8 : Int) : Statement (.bra rel8) :=
  ⟨rfl, rfl, Nat.le_of_ble_eq_true rfl, Nat.le_of_ble_eq_true rfl, fun _ _ _ => ⟨_, rfl, rfl⟩⟩

theorem brl (rel16 : Int) : Statement (.brl rel16) :=
  ⟨rfl, rfl, Nat.le_of_ble_eq_true rfl, Nat.le_of_ble_eq_true rfl, fun _ _ _ => ⟨_, rfl, rfl⟩⟩

theorem phb : Statement .phb :=
  ⟨rfl, rfl, Nat.le_of_ble_eq_true rfl, Nat.le_of_ble_eq_true rfl, fun _ _ _ => ⟨_, rfl, rfl⟩⟩

theorem txy : Statement .txy :=
  ⟨rfl, rfl, Nat.le_of_ble_eq_true rfl, Nat.le_of_ble_eq_true rfl, fun _ _ _ => ⟨_, rfl, rfl⟩⟩

theorem stzAbs (abs : Word) : Statement (.stzAbs abs) :=
  ⟨rfl, rfl, Nat.le_of_ble_eq_true rfl, Nat.le_of_ble_eq_true rfl, fun _ _ _ => ⟨_, rfl, rfl⟩⟩

theorem stzAbsX (abs : Word) : Statement (.stzAbsX abs) :=
  ⟨rfl, rfl, Nat.le_of_ble_eq_true rfl, Nat.le_of_ble_eq_true rfl, fun _ _ _ => ⟨_, rfl, rfl⟩⟩

theorem plb : Statement .plb :=
  ⟨rfl, rfl, Nat.le_of_ble_eq_true rfl, Nat.le_of_ble_eq_true rfl, fun _ _ _ => ⟨_, rfl, rfl⟩⟩

theorem tyx : Statement .tyx :=
  ⟨rfl, rfl, Nat.le_of_ble_eq_true rfl, Nat.le_of_ble_eq_true rfl, fun _ _ _ => ⟨_, rfl, rfl⟩⟩

theorem rep (imm8 : Byte) : Statement (.rep imm8) :=
  ⟨rfl, rfl, Nat.le_of_ble_eq_true rfl, Nat.le_of_ble_eq_true rfl, fun _ _ _ => ⟨_, rfl, rfl⟩⟩

theorem wai : Statement .wai :=
  ⟨rfl, rfl, Nat.le_of_ble_eq_true rfl, Nat.le_of_ble_eq_true rfl, fun _ _ _ => ⟨_, rfl, rfl⟩⟩

theorem pei (dp : Byte) : Statement (.pei dp) :=
  ⟨rfl, rfl, Nat.le_of_ble_eq_true rfl, Nat.le_of_ble_eq_true rfl, fun _ _ _ => ⟨_, rfl, rfl⟩⟩

theorem phx : Statement .phx :=
  ⟨rfl, rfl, Nat.le_of_ble_eq_true rfl, Nat.le_of_ble_eq_true rfl, fun _ _ _ => ⟨_, rfl, rfl⟩⟩

theorem stp : Statement .stp :=
  ⟨rfl, rfl, Nat.le_of_ble_eq_true rfl, Nat.le_of_ble_eq_true rfl, fun _ _ _ => ⟨_, rfl, rfl⟩⟩

theorem jml (abs : Word) : Statement (.jml abs) :=
  ⟨rfl, rfl, Nat.le_of_ble_eq_true rfl, Nat.le_of_ble_eq_true rfl, fun _ _ _ => ⟨_, rfl, rfl⟩⟩

theorem sep (imm8 : Byte) : Statement (.sep imm8) :=
  ⟨rfl, rfl, Nat.le_of_ble_eq_true rfl, Nat.le_of_ble_eq_true rfl, fun _ _ _ => ⟨_, rfl, rfl⟩⟩

theorem xba : Statement .xba :=
  ⟨rfl, rfl, Nat.le_of_ble_eq_true rfl, Nat.le_of_ble_eq_true rfl, fun _ _ _ => ⟨_, rfl, rfl⟩⟩

theorem pea (imm16 : Word) : Statement (.pea imm16) :=
  ⟨rfl, rfl, Nat.le_of_ble_eq_true rfl, Nat.le_of_ble_eq_true rfl, fun _ _ _ => ⟨_, rfl, rfl⟩⟩

theorem plx : Statement .plx :=
  ⟨rfl, rfl, Nat.le_of_ble_eq_true rfl, Nat.le_of_ble_eq_true rfl, fun _ _ _ => ⟨_, rfl, rfl⟩⟩

theorem xce : Statement .xce :=
  ⟨rfl, rfl, Nat.le_of_ble_eq_true rfl, Nat.le_of_ble_eq_true rfl, fun _ _ _ => ⟨_, rfl, rfl⟩⟩

end Sys2Proof.Laws.EncodedShape
end

