-- ==== Sys2Proof/Laws/Step.lean ====
section
/-! SUPPORT. What a step can do, said once; proofs about every step start from `step_cases`. -/

namespace Sys2Proof.Machine

/-- What an executed instruction at `u` can lead to: its own effect, or that effect with the registers discarded. -/
theorem runInstruction_cases {u t : State} {aborted : Bool} (h : u.runInstruction aborted = .next t) :
    ∃ i v, u.fetch = .ok i ∧ exec i u = .next v ∧ t = if aborted then u.discardRegisters v else v := by
  unfold State.runInstruction at h
  split at h
  · cases h
  · next i hi =>
    split at h
    · next v hv =>
      refine ⟨i, v, hi, hv, ?_⟩
      cases aborted <;> simpa using h.symm
    · cases h
    · cases h

/-- What a step that no reset cuts short can lead to. -/
theorem perform_cases {s t : State} (h : s.perform = .next t) :
    t = s.begun ∨ t = s.begun.resetEntry ∨ (∃ k, t = s.begun.hardwareInterrupt k) ∨
      ∃ i v, ({ s.begun with runState := .running } : State).fetch = .ok i ∧
        exec i { s.begun with runState := .running } = .next v ∧
        t = if s.inputsNow.abort then ({ s.begun with runState := .running } : State).discardRegisters v else v := by
  unfold State.perform at h
  split at h
  · exact .inl (Host.Outcome.next.inj h).symm
  · cases h
  · exact .inr (.inl (Host.Outcome.next.inj h).symm)
  · exact .inr (.inr (.inl ⟨_, (Host.Outcome.next.inj h).symm⟩))
  · cases h
  · cases h
  · exact .inr (.inr (.inr (runInstruction_cases h)))

/-- An ABORT asserted in a machine without it is refused, whatever else the boundary presents. -/
theorem step_abortNotModelled {s : State} (ha : s.inputsNow.abort = true) (hm : s.abortModelled = false) :
    step s = .refused .abortNotModelled := by
  simp [step, State.perform, State.action, ha, hm]

/-- Where no unmodelled ABORT is asserted the boundary decides. -/
theorem action_of_modelled {s : State} (h : s.inputsNow.abort = true → s.abortModelled = true) : s.action = s.modelledAction := by
  unfold State.action
  cases ha : s.inputsNow.abort <;> simp_all

/-- What a step can lead to. -/
theorem step_cases {s t : State} (h : step s = .next t) :
    ∃ u, s.perform = .next u ∧ t = if s.inputsNow.resetDuring then s.begun.cutReset u else u := by
  unfold step at h
  split at h
  · next u hu =>
    refine ⟨u, hu, ?_⟩
    cases hr : s.inputsNow.resetDuring <;> simpa [hr] using h.symm
  · cases h
  · cases h

/-- A step that no reset cuts short is `perform`. -/
theorem step_eq_perform {s : State} (h : s.inputsNow.resetDuring = false) : step s = s.perform := by
  unfold step
  cases s.perform <;> simp [h]

end Sys2Proof.Machine
end

