-- ==== Sys2Proof/Tests/Slice0.lean ====
section
/-! SUPPORT. Tests: every constructor's decoding on bytes written out from the tables R85, R82 and R83 of spec/30_encoding.md, the
terms that have no encoding, single steps with the expected results of spec/95_test_vectors.md and spec/96_test_vectors_interrupts.md,
and a witness for the hypotheses of every obligation. -/

namespace Sys2Proof.Tests

open Sys2Proof.Machine Sys2Proof.Claim

/-! ## Well-formedness -/

theorem test_wf_bra_high : Instr.wellFormed (.bra 128) = false := by decide
theorem test_wf_bra_low : Instr.wellFormed (.bra (-129)) = false := by decide
theorem test_wf_brl_high : Instr.wellFormed (.brl 32768) = false := by decide
theorem test_wf_brl_low : Instr.wellFormed (.brl (-32769)) = false := by decide
theorem test_wf_per_high : Instr.wellFormed (.per 32768) = false := by decide
theorem test_wf_per_low : Instr.wellFormed (.per (-32769)) = false := by decide

/-! ## Decoding and encoding -/

theorem test_decode_cop : decode 0x02 0x7F 0xEE 0xEE = .ok (.cop 0x7F) ∧ encode (.cop 0x7F) = [0x02, 0x7F] := by decide
theorem test_decode_tsbDp : decode 0x04 0x12 0xEE 0xEE = .ok (.tsbDp 0x12) ∧ encode (.tsbDp 0x12) = [0x04, 0x12] := by decide
theorem test_decode_phd : decode 0x0B 0xEE 0xEE 0xEE = .ok (.phd) ∧ encode (.phd) = [0x0B] := by decide
theorem test_decode_tsbAbs : decode 0x0C 0x34 0x12 0xEE = .ok (.tsbAbs 0x1234) ∧ encode (.tsbAbs 0x1234) = [0x0C, 0x34, 0x12] := by decide
theorem test_decode_trbDp : decode 0x14 0x21 0xEE 0xEE = .ok (.trbDp 0x21) ∧ encode (.trbDp 0x21) = [0x14, 0x21] := by decide
theorem test_decode_tcs : decode 0x1B 0xEE 0xEE 0xEE = .ok (.tcs) ∧ encode (.tcs) = [0x1B] := by decide
theorem test_decode_trbAbs : decode 0x1C 0x34 0x12 0xEE = .ok (.trbAbs 0x1234) ∧ encode (.trbAbs 0x1234) = [0x1C, 0x34, 0x12] := by decide
theorem test_decode_jsl : decode 0x22 0x56 0x34 0x12 = .ok (.jsl 0x123456) ∧ encode (.jsl 0x123456) = [0x22, 0x56, 0x34, 0x12] := by decide
theorem test_decode_pld : decode 0x2B 0xEE 0xEE 0xEE = .ok (.pld) ∧ encode (.pld) = [0x2B] := by decide
theorem test_decode_tsc : decode 0x3B 0xEE 0xEE 0xEE = .ok (.tsc) ∧ encode (.tsc) = [0x3B] := by decide
theorem test_decode_wdm : decode 0x42 0xFF 0xEE 0xEE = .ok (.wdm 0xFF) ∧ encode (.wdm 0xFF) = [0x42, 0xFF] := by decide
theorem test_decode_mvp : decode 0x44 0x02 0x01 0xEE = .ok (.mvp 0x02 0x01) ∧ encode (.mvp 0x02 0x01) = [0x44, 0x02, 0x01] := by decide
theorem test_decode_phk : decode 0x4B 0xEE 0xEE 0xEE = .ok (.phk) ∧ encode (.phk) = [0x4B] := by decide
theorem test_decode_mvn : decode 0x54 0x02 0x01 0xEE = .ok (.mvn 0x02 0x01) ∧ encode (.mvn 0x02 0x01) = [0x54, 0x02, 0x01] := by decide
theorem test_decode_phy : decode 0x5A 0xEE 0xEE 0xEE = .ok (.phy) ∧ encode (.phy) = [0x5A] := by decide
theorem test_decode_tcd : decode 0x5B 0xEE 0xEE 0xEE = .ok (.tcd) ∧ encode (.tcd) = [0x5B] := by decide
theorem test_decode_per : decode 0x62 0x00 0x80 0xEE = .ok (.per (-32768)) ∧ encode (.per (-32768)) = [0x62, 0x00, 0x80] := by decide
theorem test_decode_stzDp : decode 0x64 0x20 0xEE 0xEE = .ok (.stzDp 0x20) ∧ encode (.stzDp 0x20) = [0x64, 0x20] := by decide
theorem test_decode_rtl : decode 0x6B 0xEE 0xEE 0xEE = .ok (.rtl) ∧ encode (.rtl) = [0x6B] := by decide
theorem test_decode_stzDpX : decode 0x74 0x80 0xEE 0xEE = .ok (.stzDpX 0x80) ∧ encode (.stzDpX 0x80) = [0x74, 0x80] := by decide
theorem test_decode_ply : decode 0x7A 0xEE 0xEE 0xEE = .ok (.ply) ∧ encode (.ply) = [0x7A] := by decide
theorem test_decode_tdc : decode 0x7B 0xEE 0xEE 0xEE = .ok (.tdc) ∧ encode (.tdc) = [0x7B] := by decide
theorem test_decode_bra : decode 0x80 0x80 0xEE 0xEE = .ok (.bra (-128)) ∧ encode (.bra (-128)) = [0x80, 0x80] := by decide
theorem test_decode_brl : decode 0x82 0xFF 0x7F 0xEE = .ok (.brl 32767) ∧ encode (.brl 32767) = [0x82, 0xFF, 0x7F] := by decide
theorem test_decode_phb : decode 0x8B 0xEE 0xEE 0xEE = .ok (.phb) ∧ encode (.phb) = [0x8B] := by decide
theorem test_decode_txy : decode 0x9B 0xEE 0xEE 0xEE = .ok (.txy) ∧ encode (.txy) = [0x9B] := by decide
theorem test_decode_stzAbs : decode 0x9C 0x00 0x20 0xEE = .ok (.stzAbs 0x2000) ∧ encode (.stzAbs 0x2000) = [0x9C, 0x00, 0x20] := by decide
theorem test_decode_stzAbsX : decode 0x9E 0x34 0x12 0xEE = .ok (.stzAbsX 0x1234) ∧ encode (.stzAbsX 0x1234) = [0x9E, 0x34, 0x12] := by decide
theorem test_decode_plb : decode 0xAB 0xEE 0xEE 0xEE = .ok (.plb) ∧ encode (.plb) = [0xAB] := by decide
theorem test_decode_tyx : decode 0xBB 0xEE 0xEE 0xEE = .ok (.tyx) ∧ encode (.tyx) = [0xBB] := by decide
theorem test_decode_rep : decode 0xC2 0x30 0xEE 0xEE = .ok (.rep 0x30) ∧ encode (.rep 0x30) = [0xC2, 0x30] := by decide
theorem test_decode_wai : decode 0xCB 0xEE 0xEE 0xEE = .ok (.wai) ∧ encode (.wai) = [0xCB] := by decide
theorem test_decode_pei : decode 0xD4 0xF0 0xEE 0xEE = .ok (.pei 0xF0) ∧ encode (.pei 0xF0) = [0xD4, 0xF0] := by decide
theorem test_decode_phx : decode 0xDA 0xEE 0xEE 0xEE = .ok (.phx) ∧ encode (.phx) = [0xDA] := by decide
theorem test_decode_stp : decode 0xDB 0xEE 0xEE 0xEE = .ok (.stp) ∧ encode (.stp) = [0xDB] := by decide
theorem test_decode_jml : decode 0xDC 0x34 0x12 0xEE = .ok (.jml 0x1234) ∧ encode (.jml 0x1234) = [0xDC, 0x34, 0x12] := by decide
theorem test_decode_sep : decode 0xE2 0xC3 0xEE 0xEE = .ok (.sep 0xC3) ∧ encode (.sep 0xC3) = [0xE2, 0xC3] := by decide
theorem test_decode_xba : decode 0xEB 0xEE 0xEE 0xEE = .ok (.xba) ∧ encode (.xba) = [0xEB] := by decide
theorem test_decode_pea : decode 0xF4 0x34 0x12 0xEE = .ok (.pea 0x1234) ∧ encode (.pea 0x1234) = [0xF4, 0x34, 0x12] := by decide
theorem test_decode_plx : decode 0xFA 0xEE 0xEE 0xEE = .ok (.plx) ∧ encode (.plx) = [0xFA] := by decide
theorem test_decode_xce : decode 0xFB 0xEE 0xEE 0xEE = .ok (.xce) ∧ encode (.xce) = [0xFB] := by decide

theorem test_decode_refuses : decode 0xEA 0x00 0x00 0x00 = .error (.outsideSubset 0xEA) := by decide
theorem test_decodeTableWord : decodeTableWord 24 0x010254 = some (.mvn 0x02 0x01) := by decide
theorem test_decodeTableWord_short : decodeTableWord 8 0x22 = some (.jsl 0) := by decide
theorem test_decodeTableWord_refuses : decodeTableWord 8 0x00 = none := by decide

/-! ## Single steps -/

/-- Bytes stored from an address on, without a step. -/
def place (s : State) (a : Nat) (bs : List Byte) : State :=
  { s with mem := bs.zipIdx.foldl (fun m c => Memory.write m (a + c.2) c.1) s.mem }

/-- Bytes stored at `PB : PC`, without a step. -/
def code (s : State) (bs : List Byte) : State :=
  { s with mem := bs.zipIdx.foldl (fun m c => Memory.write m (s.codeAddr c.2).toNat c.1) s.mem }

/-- What one step leaves, where it answers a next state. -/
def after {α : Type} (s : State) (f : State → α) : Option α :=
  match step s with
  | .next t => some (f t)
  | _ => none

/-- The start state the vectors leave to a reader: native mode, `S = $01FF`, `P = $00`, PC at `00:8000`, all other registers 0. -/
def start : State := { State.reset with e := false, p := 0x00 }

/-- T2 of spec/95_test_vectors.md. -/
theorem test_brl :
    after (code start [0x82, 0xFF, 0x7F])
      (fun t => (t.pc, t.p)) =
    some (0x0002, 0x00) := by decide

/-- T5 of spec/95_test_vectors.md. -/
theorem test_brl_bank_end :
    after (code { start with pb := 0x12, pc := 0xFFFD } [0x82, 0x10, 0x00])
      (fun t => (t.pc, t.p)) =
    some (0x0010, 0x00) := by decide

/-- T8 of spec/95_test_vectors.md. -/
theorem test_bra :
    after (code start [0x80, 0x80])
      (fun t => (t.pc, t.p)) =
    some (0x7F82, 0x00) := by decide

/-- T10 of spec/95_test_vectors.md. -/
theorem test_bra_bank_end :
    after (code { start with pc := 0xFFFE } [0x80, 0x10])
      (fun t => (t.pc, t.p)) =
    some (0x0010, 0x00) := by decide

/-- T11 of spec/95_test_vectors.md. -/
theorem test_jml :
    after (place (code { start with db := 0x55 } [0xDC, 0x00, 0x10]) 0x001000 [0x34, 0x12, 0x7E])
      (fun t => (t.pb, t.pc, t.p)) =
    some (0x7E, 0x1234, 0x00) := by decide

/-- T12 of spec/95_test_vectors.md. -/
theorem test_jml_pointer_wraps :
    after (place (place (code { start with pb := 0x02 } [0xDC, 0xFF, 0xFF]) 0x00FFFF [0x78]) 0x000000 [0x56, 0x34])
      (fun t => (t.pb, t.pc, t.p)) =
    some (0x34, 0x5678, 0x00) := by decide

/-- T13 of spec/95_test_vectors.md. -/
theorem test_jsl :
    after (code start [0x22, 0x56, 0x34, 0x12])
      (fun t => (t.sp, t.pb, t.pc, t.p, t.readByte 0x0001FF, t.readByte 0x0001FE, t.readByte 0x0001FD)) =
    some (0x01FC, 0x12, 0x3456, 0x00, 0x00, 0x80, 0x03) := by decide

/-- T16 of spec/95_test_vectors.md. -/
theorem test_jsl_leaves_page_one :
    after (code { start with sp := 0x0101, p := 0x30, e := true } [0x22, 0x56, 0x34, 0x12])
      (fun t => (t.sp, t.pb, t.pc, t.p, t.readByte 0x000101, t.readByte 0x000100, t.readByte 0x0000FF)) =
    some (0x01FE, 0x12, 0x3456, 0x30, 0x00, 0x80, 0x03) := by decide

/-- T18 of spec/95_test_vectors.md. -/
theorem test_rtl :
    after (place (code { start with sp := 0x01FC } [0x6B]) 0x0001FD [0xFF, 0xFF, 0x05])
      (fun t => (t.sp, t.pb, t.pc, t.p)) =
    some (0x01FF, 0x05, 0x0000, 0x00) := by decide

/-- T19 of spec/95_test_vectors.md. -/
theorem test_rtl_leaves_page_one :
    after (place (code { start with p := 0x30, e := true } [0x6B]) 0x000200 [0x03, 0x80, 0x00])
      (fun t => (t.sp, t.pc, t.p)) =
    some (0x0102, 0x8004, 0x30) := by decide

/-- T20 of spec/95_test_vectors.md. -/
theorem test_cop_native :
    after (place (code { start with p := 0xCB, pb := 0x12 } [0x02, 0x7F]) 0x00FFE4 [0x00, 0x90])
      (fun t => (t.sp, t.pb, t.pc, t.p, t.readByte 0x0001FF, t.readByte 0x0001FE, t.readByte 0x0001FD, t.readByte 0x0001FC)) =
    some (0x01FB, 0x00, 0x9000, 0xC7, 0x12, 0x80, 0x02, 0xCB) := by decide

/-- T21 of spec/95_test_vectors.md. -/
theorem test_cop_emulation :
    after (place (code { start with p := 0x3B, e := true } [0x02, 0x7F]) 0x00FFF4 [0x00, 0xA0])
      (fun t => (t.sp, t.pc, t.p, t.readByte 0x0001FF, t.readByte 0x0001FE, t.readByte 0x0001FD)) =
    some (0x01FC, 0xA000, 0x37, 0x80, 0x02, 0x3B) := by decide

/-- T23 of spec/95_test_vectors.md. -/
theorem test_stp :
    after (code start [0xDB])
      (fun t => (t.pc, t.runState, t.p)) =
    some (0x8001, RunState.stopped, 0x00) := by decide

/-- T24 of spec/95_test_vectors.md. -/
theorem test_wai :
    after (code start [0xCB])
      (fun t => (t.pc, t.runState, t.p)) =
    some (0x8001, RunState.waiting, 0x00) := by decide

/-- T25 of spec/95_test_vectors.md. -/
theorem test_wdm :
    after (code { start with a := 0x1234, p := 0xC3 } [0x42, 0xFF])
      (fun t => (t.pc, t.p)) =
    some (0x8002, 0xC3) := by decide

/-- T30 of spec/95_test_vectors.md. -/
theorem test_mvn :
    after (place (code { start with a := 0x0003, x := 0x9000, y := 0xA000, p := 0x04 } [0x54, 0x02, 0x01]) 0x019000 [0x11, 0x22, 0x33, 0x44])
      (fun t => (t.a, t.x, t.y, t.db, t.pc, t.p, t.readByte 0x02A000)) =
    some (0x0002, 0x9001, 0xA001, 0x02, 0x8000, 0x04, 0x11) := by decide

/-- T32 of spec/95_test_vectors.md. -/
theorem test_mvn_last_byte :
    after (place (code { start with a := 0x0000, x := 0xFFFF, y := 0xFFFF } [0x54, 0x7F, 0x7E]) 0x7EFFFF [0x5A])
      (fun t => (t.a, t.x, t.y, t.db, t.pc, t.p, t.readByte 0x7FFFFF)) =
    some (0xFFFF, 0x0000, 0x0000, 0x7F, 0x8003, 0x00, 0x5A) := by decide

/-- T36 of spec/95_test_vectors.md. -/
theorem test_mvp_emulation :
    after (place (code { start with a := 0xFF00, x := 0x0005, y := 0x0006, db := 0x33, p := 0x30, e := true } [0x44, 0x01, 0x00]) 0x000005 [0x77])
      (fun t => (t.a, t.x, t.y, t.db, t.pc, t.p, t.readByte 0x010006)) =
    some (0xFEFF, 0x0004, 0x0005, 0x01, 0x8000, 0x30, 0x77) := by decide

/-- T42 of spec/95_test_vectors.md. -/
theorem test_rep_native :
    after (code { start with x := 0x0034, y := 0x00CD, p := 0xFF } [0xC2, 0xFF])
      (fun t => (t.pc, t.p)) =
    some (0x8002, 0x00) := by decide

/-- T43 of spec/95_test_vectors.md. -/
theorem test_rep_emulation :
    after (code { start with p := 0xFF, e := true } [0xC2, 0xFF])
      (fun t => (t.pc, t.p)) =
    some (0x8002, 0x30) := by decide

/-- T45 of spec/95_test_vectors.md. -/
theorem test_sep_truncates_index :
    after (code { start with x := 0x1234, y := 0xABCD, p := 0x05 } [0xE2, 0x10])
      (fun t => (t.x, t.y, t.pc, t.p)) =
    some (0x0034, 0x00CD, 0x8002, 0x15) := by decide

/-- T48 of spec/95_test_vectors.md. -/
theorem test_sep_emulation :
    after (code { start with p := 0x34, e := true } [0xE2, 0xC3])
      (fun t => (t.pc, t.p)) =
    some (0x8002, 0xF7) := by decide

/-- T49 of spec/95_test_vectors.md. -/
theorem test_xce_to_native :
    after (code { start with sp := 0x01F0, p := 0x34, e := true } [0xFB])
      (fun t => (t.pc, t.p, t.e)) =
    some (0x8001, 0x35, false) := by decide

/-- T50 of spec/95_test_vectors.md. -/
theorem test_xce_to_emulation :
    after (code { start with a := 0x5678, x := 0x1234, y := 0xABCD, sp := 0x1FF0, d := 0x2100, db := 0x7E, p := 0x01 } [0xFB])
      (fun t => (t.x, t.y, t.sp, t.pc, t.p, t.e)) =
    some (0x0034, 0x00CD, 0x01F0, 0x8001, 0x30, true) := by decide

/-- T60 of spec/95_test_vectors.md. -/
theorem test_xba :
    after (code { start with a := 0x1234 } [0xEB])
      (fun t => (t.a, t.pc, t.p)) =
    some (0x3412, 0x8001, 0x00) := by decide

/-- T62 of spec/95_test_vectors.md. -/
theorem test_xba_negative :
    after (code { start with a := 0x8001, p := 0x20 } [0xEB])
      (fun t => (t.a, t.pc, t.p)) =
    some (0x0180, 0x8001, 0xA0) := by decide

/-- T64 of spec/95_test_vectors.md. -/
theorem test_tcd_zero :
    after (code { start with a := 0x0000, d := 0x1234, p := 0x20 } [0x5B])
      (fun t => (t.d, t.pc, t.p)) =
    some (0x0000, 0x8001, 0x22) := by decide

/-- T65 of spec/95_test_vectors.md. -/
theorem test_tcd_negative :
    after (code { start with a := 0x8000, p := 0x30, e := true } [0x5B])
      (fun t => (t.d, t.pc, t.p)) =
    some (0x8000, 0x8001, 0xB0) := by decide

/-- T67 of spec/95_test_vectors.md. -/
theorem test_tcs_native :
    after (code { start with a := 0x1FFF, p := 0x20 } [0x1B])
      (fun t => (t.sp, t.pc, t.p)) =
    some (0x1FFF, 0x8001, 0x20) := by decide

/-- T68 of spec/95_test_vectors.md. -/
theorem test_tcs_emulation :
    after (code { start with a := 0x12FF, sp := 0x0180, p := 0x30, e := true } [0x1B])
      (fun t => (t.sp, t.pc, t.p)) =
    some (0x01FF, 0x8001, 0x30) := by decide

/-- T69 of spec/95_test_vectors.md. -/
theorem test_tdc :
    after (code { start with a := 0xFFFF, d := 0x1234, p := 0x20 } [0x7B])
      (fun t => (t.a, t.pc, t.p)) =
    some (0x1234, 0x8001, 0x20) := by decide

/-- T72 of spec/95_test_vectors.md. -/
theorem test_tsc_negative :
    after (code { start with sp := 0x8000 } [0x3B])
      (fun t => (t.a, t.pc, t.p)) =
    some (0x8000, 0x8001, 0x80) := by decide

/-- T73 of spec/95_test_vectors.md. -/
theorem test_txy_wide :
    after (code { start with x := 0x8001, y := 0x0000 } [0x9B])
      (fun t => (t.y, t.pc, t.p)) =
    some (0x8001, 0x8001, 0x80) := by decide

/-- T74 of spec/95_test_vectors.md. -/
theorem test_txy_narrow :
    after (code { start with x := 0x0080, p := 0x10 } [0x9B])
      (fun t => (t.y, t.pc, t.p)) =
    some (0x0080, 0x8001, 0x90) := by decide

/-- T76 of spec/95_test_vectors.md. -/
theorem test_tyx_wide :
    after (code { start with y := 0x1234, p := 0x82 } [0xBB])
      (fun t => (t.x, t.pc, t.p)) =
    some (0x1234, 0x8001, 0x00) := by decide

/-- T77 of spec/95_test_vectors.md. -/
theorem test_tyx_narrow :
    after (code { start with x := 0x0055, y := 0x0000, p := 0x10 } [0xBB])
      (fun t => (t.x, t.pc, t.p)) =
    some (0x0000, 0x8001, 0x12) := by decide

/-- T81 of spec/95_test_vectors.md. -/
theorem test_pea_wraps :
    after (code { start with sp := 0x0000 } [0xF4, 0xCD, 0xAB])
      (fun t => (t.sp, t.pc, t.p, t.readByte 0x000000, t.readByte 0x00FFFF)) =
    some (0xFFFE, 0x8003, 0x00, 0xAB, 0xCD) := by decide

/-- T82 of spec/95_test_vectors.md. -/
theorem test_pea_leaves_page_one :
    after (code { start with sp := 0x0100, p := 0x30, e := true } [0xF4, 0xCD, 0xAB])
      (fun t => (t.sp, t.pc, t.p, t.readByte 0x000100, t.readByte 0x0000FF)) =
    some (0x01FE, 0x8003, 0x30, 0xAB, 0xCD) := by decide

/-- T84 of spec/95_test_vectors.md. -/
theorem test_pei_pointer_wraps :
    after (place (place (code { start with d := 0xFF00 } [0xD4, 0xFF]) 0x00FFFF [0xCD]) 0x000000 [0xAB])
      (fun t => (t.sp, t.pc, t.p, t.readByte 0x0001FF, t.readByte 0x0001FE)) =
    some (0x01FD, 0x8002, 0x00, 0xAB, 0xCD) := by decide

/-- T85 of spec/95_test_vectors.md. -/
theorem test_pei_no_page_wrap :
    after (place (code { start with d := 0x0000, p := 0x30, e := true } [0xD4, 0xFF]) 0x0000FF [0x11, 0x22])
      (fun t => (t.sp, t.pc, t.p, t.readByte 0x0001FF, t.readByte 0x0001FE)) =
    some (0x01FD, 0x8002, 0x30, 0x22, 0x11) := by decide

/-- T87 of spec/95_test_vectors.md. -/
theorem test_per_negative :
    after (code { start with pb := 0x05 } [0x62, 0xFD, 0xFF])
      (fun t => (t.sp, t.pc, t.p, t.readByte 0x0001FF, t.readByte 0x0001FE)) =
    some (0x01FD, 0x8003, 0x00, 0x80, 0x00) := by decide

/-- T88 of spec/95_test_vectors.md. -/
theorem test_per_wraps :
    after (code { start with pc := 0xC000 } [0x62, 0x00, 0x80])
      (fun t => (t.sp, t.pc, t.p, t.readByte 0x0001FF, t.readByte 0x0001FE)) =
    some (0x01FD, 0xC003, 0x00, 0x40, 0x03) := by decide

/-- T89 of spec/95_test_vectors.md. -/
theorem test_phb :
    after (code { start with db := 0x7E, p := 0x20 } [0x8B])
      (fun t => (t.sp, t.pc, t.p, t.readByte 0x0001FF)) =
    some (0x01FE, 0x8001, 0x20, 0x7E) := by decide

/-- T90 of spec/95_test_vectors.md. -/
theorem test_phb_emulation :
    after (code { start with sp := 0x0100, db := 0x12, p := 0x30, e := true } [0x8B])
      (fun t => (t.sp, t.pc, t.p, t.readByte 0x000100)) =
    some (0x01FF, 0x8001, 0x30, 0x12) := by decide

/-- T91 of spec/95_test_vectors.md. -/
theorem test_phd :
    after (code { start with d := 0x1234, p := 0x30 } [0x0B])
      (fun t => (t.sp, t.pc, t.p, t.readByte 0x0001FF, t.readByte 0x0001FE)) =
    some (0x01FD, 0x8001, 0x30, 0x12, 0x34) := by decide

/-- T93 of spec/95_test_vectors.md. -/
theorem test_phk :
    after (code { start with pb := 0x7E } [0x4B])
      (fun t => (t.sp, t.pc, t.p, t.readByte 0x0001FF)) =
    some (0x01FE, 0x8001, 0x00, 0x7E) := by decide

/-- T94 of spec/95_test_vectors.md. -/
theorem test_phx_wide :
    after (code { start with x := 0x1234 } [0xDA])
      (fun t => (t.sp, t.pc, t.p, t.readByte 0x0001FF, t.readByte 0x0001FE)) =
    some (0x01FD, 0x8001, 0x00, 0x12, 0x34) := by decide

/-- T97 of spec/95_test_vectors.md. -/
theorem test_phx_emulation :
    after (code { start with x := 0x0055, sp := 0x0100, p := 0x30, e := true } [0xDA])
      (fun t => (t.sp, t.pc, t.p, t.readByte 0x000100)) =
    some (0x01FF, 0x8001, 0x30, 0x55) := by decide

/-- T98 of spec/95_test_vectors.md. -/
theorem test_phy_wide :
    after (code { start with y := 0xABCD } [0x5A])
      (fun t => (t.sp, t.pc, t.p, t.readByte 0x0001FF, t.readByte 0x0001FE)) =
    some (0x01FD, 0x8001, 0x00, 0xAB, 0xCD) := by decide

/-- T99 of spec/95_test_vectors.md. -/
theorem test_phy_narrow :
    after (code { start with y := 0x00CD, p := 0x10 } [0x5A])
      (fun t => (t.sp, t.pc, t.p, t.readByte 0x0001FF)) =
    some (0x01FE, 0x8001, 0x10, 0xCD) := by decide

/-- T100 of spec/95_test_vectors.md. -/
theorem test_plb :
    after (place (code { start with sp := 0x01FE } [0xAB]) 0x0001FF [0x80])
      (fun t => (t.sp, t.db, t.pc, t.p)) =
    some (0x01FF, 0x80, 0x8001, 0x80) := by decide

/-- T102 of spec/95_test_vectors.md. -/
theorem test_plb_leaves_page_one :
    after (place (code { start with p := 0x30, e := true } [0xAB]) 0x000200 [0x7E])
      (fun t => (t.sp, t.db, t.pc, t.p)) =
    some (0x0100, 0x7E, 0x8001, 0x30) := by decide

/-- T103 of spec/95_test_vectors.md. -/
theorem test_pld :
    after (place (code { start with sp := 0x01FD } [0x2B]) 0x0001FE [0x00, 0x21])
      (fun t => (t.sp, t.d, t.pc, t.p)) =
    some (0x01FF, 0x2100, 0x8001, 0x00) := by decide

/-- T105 of spec/95_test_vectors.md. -/
theorem test_pld_wraps :
    after (place (place (code { start with sp := 0xFFFE } [0x2B]) 0x00FFFF [0x00]) 0x000000 [0x80])
      (fun t => (t.sp, t.d, t.pc, t.p)) =
    some (0x0000, 0x8000, 0x8001, 0x80) := by decide

/-- T106 of spec/95_test_vectors.md. -/
theorem test_plx_wide :
    after (place (code { start with sp := 0x01FD } [0xFA]) 0x0001FE [0x34, 0x12])
      (fun t => (t.x, t.sp, t.pc, t.p)) =
    some (0x1234, 0x01FF, 0x8001, 0x00) := by decide

/-- T108 of spec/95_test_vectors.md. -/
theorem test_plx_emulation :
    after (place (code { start with p := 0x30, e := true } [0xFA]) 0x000100 [0x00])
      (fun t => (t.sp, t.pc, t.p)) =
    some (0x0100, 0x8001, 0x32) := by decide

/-- T109 of spec/95_test_vectors.md. -/
theorem test_ply_wide_zero :
    after (place (code { start with y := 0x1234, sp := 0x01FD } [0x7A]) 0x0001FE [0x00, 0x00])
      (fun t => (t.y, t.sp, t.pc, t.p)) =
    some (0x0000, 0x01FF, 0x8001, 0x02) := by decide

/-- T110 of spec/95_test_vectors.md. -/
theorem test_ply_narrow :
    after (place (code { start with sp := 0x01FE, p := 0x90 } [0x7A]) 0x0001FF [0x7F])
      (fun t => (t.y, t.sp, t.pc, t.p)) =
    some (0x007F, 0x01FF, 0x8001, 0x10) := by decide

/-- T121 of spec/95_test_vectors.md. -/
theorem test_stzAbs :
    after (place (code { start with db := 0x7E } [0x9C, 0x00, 0x20]) 0x7E2000 [0xFF, 0xFF])
      (fun t => (t.pc, t.p, t.readByte 0x7E2000, t.readByte 0x7E2001)) =
    some (0x8003, 0x00, 0x00, 0x00) := by decide

/-- T122 of spec/95_test_vectors.md. -/
theorem test_stzAbs_next_bank :
    after (code { start with db := 0x7E } [0x9C, 0xFF, 0xFF])
      (fun t => (t.pc, t.p, t.readByte 0x7EFFFF, t.readByte 0x7F0000)) =
    some (0x8003, 0x00, 0x00, 0x00) := by decide

/-- T124 of spec/95_test_vectors.md. -/
theorem test_stzAbsX_crosses_bank :
    after (code { start with x := 0x0002, db := 0x7E, p := 0x20 } [0x9E, 0xFF, 0xFF])
      (fun t => (t.pc, t.p, t.readByte 0x7F0001)) =
    some (0x8003, 0x20, 0x00) := by decide

/-- T125 of spec/95_test_vectors.md. -/
theorem test_stzAbsX_wraps :
    after (code { start with x := 0x0001, db := 0xFF, p := 0x20 } [0x9E, 0xFF, 0xFF])
      (fun t => (t.pc, t.p, t.readByte 0x000000)) =
    some (0x8003, 0x20, 0x00) := by decide

/-- T126 of spec/95_test_vectors.md. -/
theorem test_stzDp :
    after (code { start with p := 0x20 } [0x64, 0x20])
      (fun t => (t.pc, t.p, t.readByte 0x000020)) =
    some (0x8002, 0x20, 0x00) := by decide

/-- T127 of spec/95_test_vectors.md. -/
theorem test_stzDp_wide :
    after (code { start with d := 0x0100 } [0x64, 0xFF])
      (fun t => (t.pc, t.p, t.readByte 0x0001FF, t.readByte 0x000200)) =
    some (0x8002, 0x00, 0x00, 0x00) := by decide

/-- T128 of spec/95_test_vectors.md. -/
theorem test_stzDpX_native :
    after (code { start with x := 0x0010, d := 0xFF80, p := 0x20 } [0x74, 0x80])
      (fun t => (t.pc, t.p, t.readByte 0x000010)) =
    some (0x8002, 0x20, 0x00) := by decide

/-- T129 of spec/95_test_vectors.md. -/
theorem test_stzDpX_emulation :
    after (code { start with x := 0x0090, d := 0x0000, p := 0x30, e := true } [0x74, 0x80])
      (fun t => (t.pc, t.p, t.readByte 0x000010)) =
    some (0x8002, 0x30, 0x00) := by decide

/-- T131 of spec/95_test_vectors.md. -/
theorem test_tsbDp :
    after (place (code { start with a := 0xA50F, p := 0x20 } [0x04, 0x20]) 0x000020 [0x00])
      (fun t => (t.pc, t.p, t.readByte 0x000020)) =
    some (0x8002, 0x22, 0x0F) := by decide

/-- T133 of spec/95_test_vectors.md. -/
theorem test_tsbAbs :
    after (place (code { start with a := 0x8001 } [0x0C, 0x00, 0x30]) 0x003000 [0x01, 0x00])
      (fun t => (t.pc, t.p, t.readByte 0x003001, t.readByte 0x003000)) =
    some (0x8003, 0x00, 0x80, 0x01) := by decide

/-- T134 of spec/95_test_vectors.md. -/
theorem test_tsbAbs_z :
    after (place (code { start with a := 0x00F0, p := 0xC0 } [0x0C, 0x00, 0x30]) 0x003000 [0x0F, 0xFF])
      (fun t => (t.pc, t.p, t.readByte 0x003001, t.readByte 0x003000)) =
    some (0x8003, 0xC2, 0xFF, 0xFF) := by decide

/-- T135 of spec/95_test_vectors.md. -/
theorem test_tsbDp_acc_zero :
    after (place (code { start with a := 0xFF00, p := 0x20 } [0x04, 0x20]) 0x000020 [0x5A])
      (fun t => (t.pc, t.p, t.readByte 0x000020)) =
    some (0x8002, 0x22, 0x5A) := by decide

/-- T136 of spec/95_test_vectors.md. -/
theorem test_trbDp :
    after (place (code { start with a := 0xA50F, p := 0x22 } [0x14, 0x21]) 0x000021 [0xFF])
      (fun t => (t.pc, t.p, t.readByte 0x000021)) =
    some (0x8002, 0x20, 0xF0) := by decide

/-- T138 of spec/95_test_vectors.md. -/
theorem test_trbAbs :
    after (place (place (code { start with a := 0xFF00, db := 0x01 } [0x1C, 0xFF, 0xFF]) 0x01FFFF [0xAA]) 0x020000 [0x55])
      (fun t => (t.pc, t.p, t.readByte 0x020000, t.readByte 0x01FFFF)) =
    some (0x8003, 0x00, 0x00, 0xAA) := by decide

/-- T139 of spec/95_test_vectors.md. -/
theorem test_trbDp_wide :
    after (place (code { start with a := 0x8001, d := 0x1000 } [0x14, 0x10]) 0x001010 [0xFF, 0xFF])
      (fun t => (t.pc, t.p, t.readByte 0x001011, t.readByte 0x001010)) =
    some (0x8002, 0x00, 0x7F, 0xFE) := by decide


/-- An IRQ, an NMI, an ABORT or a RESET asserted at the boundary, and a RESET during the step. -/
def irqIn : Inputs := { Inputs.quiet with irq := true }
def nmiIn : Inputs := { Inputs.quiet with nmi := true }
def abortIn : Inputs := { Inputs.quiet with abort := true }
def resetIn : Inputs := { Inputs.quiet with reset := true }
def resetDuringIn : Inputs := { Inputs.quiet with resetDuring := true }

/-- T26 of spec/96_test_vectors_interrupts.md. -/
theorem test_irq_native :
    after (place { start with pb := 0x05, pc := 0x8123, schedule := [irqIn] } 0x00FFEE [0x00, 0xC0])
      (fun t => (t.sp, t.p, t.pb, t.pc, t.readByte 0x0001FF, t.readByte 0x0001FE, t.readByte 0x0001FD, t.readByte 0x0001FC)) =
    some (0x01FB, 0x04, 0x00, 0xC000, 0x05, 0x81, 0x23, 0x00) := by decide

/-- T27: masked, the instruction executes. -/
theorem test_irq_masked :
    after (code { start with pb := 0x05, pc := 0x8123, p := 0x04, schedule := [irqIn] } [0xEB]) (fun t => (t.pb, t.pc, t.sp)) =
    some (0x05, 0x8124, 0x01FF) := by decide

/-- T28. -/
theorem test_nmi_emulation :
    after (place { start with e := true, pc := 0x8123, p := 0x33, schedule := [nmiIn] } 0x00FFFA [0x00, 0xD0])
      (fun t => (t.sp, t.p, t.pb, t.pc, t.readByte 0x0001FF, t.readByte 0x0001FE, t.readByte 0x0001FD)) =
    some (0x01FC, 0x37, 0x00, 0xD000, 0x81, 0x23, 0x23) := by decide

/-- T29. -/
theorem test_nmi_native :
    after (place { start with pc := 0x9000, p := 0x0C, nmiPending := true } 0x00FFEA [0x00, 0xE0])
      (fun t => (t.sp, t.p, t.pc, t.readByte 0x0001FC, t.nmiPending)) =
    some (0x01FB, 0x04, 0xE000, 0x0C, false) := by decide

/-- T140. -/
theorem test_wai_masked_irq :
    after (code { start with pc := 0x8001, p := 0x04, runState := .waiting, schedule := [irqIn] } [0xEB])
      (fun t => (t.runState, t.pc, t.sp)) = some (RunState.running, 0x8002, 0x01FF) := by decide

/-- T141. -/
theorem test_wai_irq :
    after (place { start with pc := 0x8001, runState := .waiting, schedule := [irqIn] } 0x00FFEE [0x00, 0xC0])
      (fun t => (t.runState, t.sp, t.p, t.pc, t.readByte 0x0001FD)) = some (RunState.running, 0x01FB, 0x04, 0xC000, 0x01) := by
  decide

/-- T142. -/
theorem test_wai_stuck : step { start with runState := .waiting } = .fault .waitingForever := rfl

/-- T143. -/
theorem test_stopped_stays :
    after { start with runState := .stopped, schedule := [{ irqIn with nmi := true }] } (fun t => (t.runState, t.pc)) =
    some (RunState.stopped, 0x8000) := by decide

/-- T145. -/
theorem test_reset_from_stopped :
    after (place { start with runState := .stopped, d := 0x2100, db := 0x7E, pb := 0x05, schedule := [resetIn] } 0x00FFFC [0x34, 0x12])
      (fun t => (t.runState, t.e, t.p, t.d, t.pb, t.pc)) =
    some (RunState.running, true, 0x34, 0x0000, 0x00, 0x1234) := by decide

/-- R208: the aborted instruction leaves no register changed, and the ABORT is pending. -/
theorem test_abort :
    after (code { start with a := 0x1234, abortModelled := true, schedule := [abortIn] } [0xEB]) (fun t => (t.a, t.pc, t.abortPending)) =
    some (0x1234, 0x8000, true) := by decide

/-- R112, R220, R208: an ABORT ends the wait with the address after the WAI as the return address. -/
theorem test_wai_abort :
    after (place { start with pc := 0x8001, abortModelled := true, runState := .waiting, schedule := [abortIn] } 0x00FFE8 [0x00, 0xC0])
      (fun t => (t.runState, t.pc, t.readByte 0x0001FE, t.readByte 0x0001FD)) = some (RunState.running, 0xC000, 0x80, 0x01) := by
  decide

/-- U7: without ABORT in the model, a schedule that asserts it is refused. -/
theorem test_abort_not_modelled : step { start with schedule := [abortIn] } = .refused .abortNotModelled := rfl

/-- R113, D10: WDM in a machine that refuses the reserved opcode. -/
theorem test_wdm_refused : exec (.wdm 0xFF) { start with wdmMeaning := .refuse } = .refused .wdmReserved := rfl

/-- R63, D13, in a machine that refuses the open case: at `S = $0100` PHD is refused, at `S = $0101` no access leaves page 1. -/
theorem test_crossing_refused :
    let s := { start with e := true, p := 0x30, d := 0x1234, emuStackCross := .refuse }
    exec .phd { s with sp := 0x0100 } = .refused .stackLeavesPageOne ∧
      after (code { s with sp := 0x0101 } [0x0B]) (fun t => (t.sp, t.readByte 0x000101, t.readByte 0x000100)) =
        some (0x01FF, 0x12, 0x34) := ⟨rfl, by decide⟩

/-- R240: a push onto the instruction's own byte. -/
theorem test_self_overwrite : exec .phk { start with sp := 0x8000 } = .refused .selfOverwrite := rfl

/-- R57, U11, R56: a store to ROM has no effect; the platform sees a 16-bit TSB write the high byte first. -/
theorem test_rom_and_device :
    after (code { start with memMap := [{ base := 0x2000, size := 1, kind := .rom }] } [0x9C, 0x00, 0x20])
      (fun t => (t.mem.length, t.readByte 0x2000)) = some (2, 0x00) ∧
    after (code { start with memMap := [{ base := 0x2000, size := 2, kind := .device }] } [0x9C, 0x00, 0x20]) (fun t => t.deviceOut) =
      some [(0x2000, 0x00), (0x2001, 0x00)] := by decide

/-- A word of the opcode table placed after reset is the instruction the next step runs (log entry 20). -/
theorem test_withFetchWord :
    after (State.reset.withFetchWord 24 0x1234F4) (fun t => (t.pc, t.sp, t.readByte 0x0001FF, t.readByte 0x0001FE)) =
    some (0x8003, 0x01FD, 0x12, 0x34) := by decide

/-! ## Witnesses: the hypotheses of each obligation met by a concrete state and operands, at the ends of their ranges -/

/-- A step answers a next state. -/
def goesOn (s : State) : Bool :=
  match step s with
  | .next _ => true
  | _ => false

/-- The hazard of R240 ruled out by evaluation. -/
theorem clear_of {s : State} {n : Nat} {l : List Addr} (h : l.all (fun a => !(s.ownBytes n).contains a) = true) :
    s.clearOfOwn n l := by
  simpa [State.clearOfOwn] using h

/-- The state that has the bytes at `PB : PC`, with one more boundary's inputs to come. -/
def nativeXba : State := code { start with schedule := [Inputs.quiet] } [0xEB]
def emulated : State := { start with e := true, p := 0x30 }

theorem witness_DecodeOfEncode :
    (Instr.bra (-128)).wellFormed = true ∧ encode (.bra (-128)) <+: [0x80, 0x80, 0x00, 0x00] ∧
    (Instr.brl 32767).wellFormed = true ∧ encode (.brl 32767) <+: [0x82, 0xFF, 0x7F, 0x00] ∧
    encode (.jsl 0xFFFFFF) <+: [0x22, 0xFF, 0xFF, 0xFF] := by decide

theorem witness_EncodeOfDecode : decode 0x62 0x00 0x80 0x00 = .ok (.per (-32768)) := by decide

theorem witness_OnlySubsetOpcodesDecode : (0xFB : Byte) ∈ opcodes ∧ (0xFF : Byte) ∉ opcodes ∧ (0x00 : Byte) ∉ opcodes := by decide

theorem witness_StepRunsDecodedInstruction :
    nativeXba.runState = .running ∧ programGoesOn nativeXba ∧ (pastBoundary nativeXba).fetch = .ok .xba := by decide

theorem witness_StepRunsDecodedInstruction_masked_irq :
    programGoesOn { nativeXba with p := 0x04, schedule := [irqIn] } := by decide

theorem witness_StepRefusesOutsideSubset :
    State.reset.runState = .running ∧ programGoesOn State.reset ∧ (pastBoundary State.reset).codeByte 0 ∉ opcodes := by decide

theorem witness_StepKeepsModeInvariants : emulated.modesOk ∧ goesOn (code emulated [0xC2, 0xFF]) = true := by decide

theorem witness_StepKeepsMemoryForm :
    (code emulated [0x0B]).memOk ∧ goesOn (code emulated [0x0B]) = true ∧ (code emulated [0x0B]).mem ≠ [] := by decide

theorem witness_StepWritesOnlyRam :
    let s := code { start with memMap := [{ base := 0x01FF, size := 1, kind := .rom }] } [0x4B]
    s.memOk ∧ s.kindAt 0x0001FF = .rom ∧ goesOn s = true := by decide

theorem witness_ResetInputResets :
    let s := { start with runState := .waiting, schedule := [{ resetIn with nmi := true }] }
    s.inputsNow.reset = true ∧ s.inputsNow.resetDuring = false ∧ (s.inputsNow.abort = true → s.abortModelled = true) := by decide

theorem witness_ResetCutsStepShort :
    let s := code { start with schedule := [resetDuringIn] } [0x8B]
    s.memOk ∧ s.inputsNow.resetDuring = true ∧ ∃ u, s.perform = .next u := ⟨by decide, by decide, _, rfl⟩

theorem witness_StoppedUntilReset :
    let s := { start with runState := .stopped, abortModelled := true, schedule := [{ irqIn with nmi := true, abort := true }] }
    s.runState = .stopped ∧ s.inputsNow.reset = false ∧ s.inputsNow.resetDuring = false ∧
      (s.inputsNow.abort = true → s.abortModelled = true) := by decide

theorem witness_WaitingUntilInput :
    (let s := { start with runState := .waiting };
      s.runState = .waiting ∧ s.nmiPending = false ∧ s.abortPending = false ∧ s.inputsNow = Inputs.quiet ∧ s.schedule = []) ∧
    (let s := { start with runState := .waiting, schedule := [Inputs.quiet, irqIn] };
      s.inputsNow = Inputs.quiet ∧ s.schedule ≠ []) ∧
    (let s := code { start with runState := .waiting, p := 0x04, schedule := [irqIn] } [0xEB];
      programGoesOn s ∧ s.inputsNow.irq = true ∧ (pastBoundary s).fetch = .ok .xba) := by decide

theorem witness_NmiTakenAtBoundary :
    (let s := { start with schedule := [nmiIn] };
      s.memOk ∧ s.runState ≠ .stopped ∧ s.inputsNow.reset = false ∧ s.inputsNow.resetDuring = false ∧ s.inputsNow.abort = false ∧
        s.abortPending = false ∧ s.inputsNow.nmi = true) ∧
    (let s := { emulated with runState := .waiting, nmiPending := true };
      s.memOk ∧ s.runState ≠ .stopped ∧ s.inputsNow.reset = false ∧ s.inputsNow.resetDuring = false ∧ s.inputsNow.abort = false ∧
        s.abortPending = false ∧ s.nmiPending = true) := by decide

theorem witness_IrqTakenAtBoundary :
    let s := { start with schedule := [irqIn] }
    s.memOk ∧ s.runState ≠ .stopped ∧ s.inputsNow.reset = false ∧ s.inputsNow.resetDuring = false ∧ s.inputsNow.abort = false ∧
      s.abortPending = false ∧ s.nmiPending = false ∧ s.inputsNow.nmi = false ∧ s.inputsNow.irq = true ∧ s.flag .i = false ∧
      s.iJustChanged = false := by decide

theorem witness_IrqAfterMaskChange :
    let s := code { start with p := 0x04, iJustChanged := true, schedule := [irqIn] } [0xEB]
    s.memOk ∧ s.runState = .running ∧ s.inputsNow = { Inputs.quiet with irq := true } ∧ s.abortPending = false ∧
      s.nmiPending = false ∧ s.iJustChanged = true ∧ (pastBoundary s).fetch = .ok .xba := by decide

theorem witness_AbortDiscardsRegisters :
    let s := code { start with abortModelled := true, schedule := [abortIn] } [0x8B]
    s.abortModelled = true ∧ s.runState = .running ∧ s.inputsNow = { Inputs.quiet with abort := true } ∧ s.abortPending = false ∧ s.nmiPending = false ∧
      (pastBoundary s).fetch = .ok .phb ∧ ∃ u, exec .phb (pastBoundary s) = .next u :=
  ⟨by decide, by decide, by decide, by decide, by decide, by decide, _, rfl⟩

theorem witness_AbortTakenAtBoundary :
    (let s := { start with abortModelled := true, abortPending := true, schedule := [{ irqIn with nmi := true }] };
      s.memOk ∧ s.abortModelled = true ∧ s.runState = .running ∧ s.inputsNow.reset = false ∧ s.inputsNow.resetDuring = false ∧
        s.inputsNow.abort = false ∧ s.abortPending = true) ∧
    (let s := { emulated with abortModelled := true, runState := .waiting, schedule := [abortIn] };
      s.memOk ∧ s.abortModelled = true ∧ s.runState = .waiting ∧ s.inputsNow.reset = false ∧ s.inputsNow.resetDuring = false ∧
        s.inputsNow.abort = true) := by decide

theorem witness_StopWaitAndReservedOpcode :
    start.wdmMeaning = .twoByteNop ∧ State.wdmMeaning { start with wdmMeaning := .refuse } = .refuse := by decide

theorem witness_CopTrapsInNativeMode :
    let s := { start with sp := 0x0001 }
    s.e = false ∧ s.memOk ∧ s.clearOfOwn 2 [bank0 s.sp, bank0 (s.sp - 1), bank0 (s.sp - 2), bank0 (s.sp - 3)] :=
  ⟨by decide, by decide, clear_of (by decide)⟩

theorem witness_CopTrapsInEmulationMode :
    let s := { emulated with sp := 0x0101 }
    s.e = true ∧ s.memOk ∧ s.clearOfOwn 2 [bank0 s.sp, bank0 (downOrd true s.sp 1), bank0 (downOrd true s.sp 2)] :=
  ⟨by decide, by decide, clear_of (by decide)⟩

theorem witness_JumpSubroutineLong :
    let s := { emulated with sp := 0x0102 }
    noPushCrossing s 3 ∧ s.memOk ∧ s.clearOfOwn 4 [bank0 s.sp, bank0 (s.sp - 1), bank0 (s.sp - 2)] :=
  ⟨by decide, by decide, clear_of (by decide)⟩

theorem witness_ReturnFromSubroutineLong : noPullCrossing { emulated with sp := 0x01FC } 3 ∧ noPullCrossing start 3 := by decide

theorem witness_SubroutineReturnsAfterCall :
    let s := { emulated with sp := 0x0103 }
    s.memOk ∧ s.modesOk ∧ (s.e = false ∨ 3 ≤ (loByte s.sp).toNat) ∧ s.clearOfOwn 4 [bank0 s.sp, bank0 (s.sp - 1), bank0 (s.sp - 2)] ∧
      ∀ a ∈ [bank0 s.sp, bank0 (s.sp - 1), bank0 (s.sp - 2)], s.kindAt a = .ram :=
  ⟨by decide, by decide, by decide, clear_of (by decide), fun _ _ => rfl⟩

theorem witness_BlockMoveIteration : start.memOk ∧ start.clearOfOwn 3 [longAddr 0x02 start.y] :=
  ⟨by decide, clear_of (by decide)⟩

theorem witness_WholeBlockMove :
    let s := code { start with a := 0x0002, x := 0x9000, y := 0xFFFE } [0x54, 0x02, 0x01]
    s.runState = .running ∧ s.schedule = [] ∧ s.nmiPending = false ∧ s.abortPending = false ∧ s.memMap = [] ∧
      s.fetch = .ok (blockMove true 0x02 0x01) ∧
      ∀ k ≤ s.a.toNat, longAddr 0x02 (movedIndex (s.flag .x) true s.y k) ∉ s.ownBytes 3 := by
  refine ⟨by decide, by decide, by decide, by decide, by decide, by decide, fun k hk => ?_⟩
  have hk : k ≤ 2 := hk
  interval_cases k <;> decide

theorem witness_IndexTransfers : State.flag { start with p := 0x10 } .x = true ∧ start.flag .x = false := by decide

theorem witness_PeaPushesOperand :
    let s := { start with sp := 0x0000 }
    noPushCrossing s 2 ∧ s.memOk ∧ s.clearOfOwn 3 [bank0 s.sp, bank0 (s.sp - 1)] :=
  ⟨by decide, by decide, clear_of (by decide)⟩

theorem witness_PeiPushesDirectPageWord :
    (noPushCrossing start 2 ∧ start.memOk ∧ start.clearOfOwn 2 [bank0 start.sp, bank0 (start.sp - 1)] ∧ start.e = false) ∧
    (noPushCrossing { emulated with d := 0x0001 } 2 ∧ loByte 0x0001 ≠ 0) ∧ (noPushCrossing emulated 2 ∧ (0xFE : Byte) ≠ 0xFF) :=
  ⟨⟨by decide, by decide, clear_of (by decide), by decide⟩, by decide, by decide⟩

theorem witness_PerPushesRelativeAddress :
    noPushCrossing emulated 2 ∧ emulated.memOk ∧ emulated.clearOfOwn 3 [bank0 emulated.sp, bank0 (emulated.sp - 1)] :=
  ⟨by decide, by decide, clear_of (by decide)⟩

theorem witness_PhdPushesDirectRegister :
    noPushCrossing start 2 ∧ start.memOk ∧ start.clearOfOwn 1 [bank0 start.sp, bank0 (start.sp - 1)] :=
  ⟨by decide, by decide, clear_of (by decide)⟩

theorem witness_PhbPhkPushBankRegister :
    let s := { emulated with sp := 0x0100 }
    s.memOk ∧ s.clearOfOwn 1 [bank0 s.sp] :=
  ⟨by decide, clear_of (by decide)⟩

theorem witness_PhxPhyPushIndexRegister :
    (emulated.memOk ∧ emulated.flag .x = true ∧ emulated.clearOfOwn 1 [bank0 emulated.sp]) ∧
    (let s := { start with sp := 0x0000 };
      s.memOk ∧ s.flag .x = false ∧ s.clearOfOwn 1 [bank0 s.sp, bank0 (downOrd s.e s.sp 1)]) :=
  ⟨⟨by decide, by decide, clear_of (by decide)⟩, by decide, by decide, clear_of (by decide)⟩

theorem witness_PlbPullsDataBank : noPullCrossing { emulated with sp := 0x01FE } 1 ∧ noPullCrossing start 1 := by decide

theorem witness_PldPullsDirectRegister : noPullCrossing { emulated with sp := 0x01FD } 2 ∧ noPullCrossing start 2 := by decide

theorem witness_PlxPlyPullIndexRegister : emulated.flag .x = true ∧ start.flag .x = false := by decide

theorem witness_NewStylePushesLeavePageOne :
    (let s := { emulated with sp := 0x0100 };
      s.e = true ∧ s.emuStackCross = .described ∧ (loByte s.sp).toNat + 1 < 2 ∧ s.memOk ∧ s.clearOfOwn 3 [bank0 s.sp, bank0 (s.sp - 1)]) ∧
    (emulated.e = true ∧ emulated.emuStackCross = .described ∧ loByte emulated.d = 0 ∧ emulated.clearOfOwn 2 [bank0 emulated.sp, bank0 (emulated.sp - 1)]) ∧
    (let s := { emulated with sp := 0x0101 };
      (loByte s.sp).toNat + 1 < 3 ∧ s.clearOfOwn 4 [bank0 s.sp, bank0 (s.sp - 1), bank0 (s.sp - 2)]) :=
  ⟨⟨by decide, by decide, by decide, by decide, clear_of (by decide)⟩,
    ⟨by decide, by decide, by decide, clear_of (by decide)⟩, by decide, clear_of (by decide)⟩

theorem witness_NewStylePullsLeavePageOne :
    emulated.e = true ∧ emulated.emuStackCross = .described ∧ 0xFF < (loByte emulated.sp).toNat + 1 ∧ 0xFF < (loByte 0x01FE).toNat + 2 ∧
      0xFF < (loByte 0x01FD).toNat + 3 := by decide

theorem witness_DirectPageAddress :
    (emulated.e = true ∧ loByte emulated.d = 0) ∧ start.e = false ∧ loByte (State.d { emulated with d := 0x0001 }) ≠ 0 := by decide

theorem witness_StzClearsOperand :
    let s := { start with db := 0xFF, x := 0x0001, p := 0x20 }
    memoryOperand s (.stzAbsX 0xFFFF) = some (0x000000, 0x000001) ∧ s.memOk ∧
      s.clearOfOwn (Instr.stzAbsX 0xFFFF).length (operandAddrs s 0x000000 0x000001) :=
  ⟨by decide, by decide, clear_of (by decide)⟩

theorem witness_StzClearsOperand_direct :
    memoryOperand { emulated with x := 0x0090 } (.stzDpX 0x80) = some (0x000010, 0x000011) ∧
    memoryOperand start (.stzDp 0xFF) = some (0x0000FF, 0x000100) ∧
    start.clearOfOwn 2 (operandAddrs start 0x0000FF 0x000100) :=
  ⟨by decide, by decide, clear_of (by decide)⟩

theorem witness_TsbSetsOperandBits :
    (memoryOperand start (.tsbAbs 0xFFFF) = some (0x00FFFF, 0x010000) ∧ start.memOk ∧ start.flag .m = false ∧
      start.clearOfOwn 3 (operandAddrs start 0x00FFFF 0x010000)) ∧
    (memoryOperand emulated (.tsbDp 0xFF) = some (0x0000FF, 0x000000) ∧ emulated.memOk ∧ emulated.flag .m = true ∧
      emulated.clearOfOwn 2 (operandAddrs emulated 0x0000FF 0x000000)) :=
  ⟨⟨by decide, by decide, by decide, clear_of (by decide)⟩, by decide, by decide, by decide, clear_of (by decide)⟩

theorem witness_TrbResetsOperandBits :
    (memoryOperand start (.trbDp 0xFF) = some (0x0000FF, 0x000100) ∧ start.memOk ∧ start.flag .m = false ∧
      start.clearOfOwn 2 (operandAddrs start 0x0000FF 0x000100)) ∧
    (memoryOperand emulated (.trbAbs 0x3000) = some (0x003000, 0x003001) ∧ emulated.memOk ∧ emulated.flag .m = true ∧
      emulated.clearOfOwn 3 (operandAddrs emulated 0x003000 0x003001)) :=
  ⟨⟨by decide, by decide, by decide, clear_of (by decide)⟩, by decide, by decide, by decide, clear_of (by decide)⟩

theorem witness_EveryInstructionCompletes_refused :
    refusedByParameter { start with wdmMeaning := .refuse } (.wdm 0x00) .wdmReserved ∧
      refusedByParameter { emulated with emuStackCross := .refuse, sp := 0x01FD } .rtl .stackLeavesPageOne :=
  ⟨.inl ⟨rfl, ⟨_, rfl⟩, rfl⟩, .inr ⟨rfl, rfl, .inr (.inr (.inr (.inr (.inl ⟨rfl, by decide⟩)))), rfl⟩⟩

/-- With the parameters of `start` nothing is refused by them. -/
theorem start_not_refused (s : State) (hw : s.wdmMeaning = .twoByteNop) (hs : s.emuStackCross = .described) (i : Instr) (r : Refusal) :
    ¬ refusedByParameter s i r := by
  simp [refusedByParameter, hw, hs]

theorem witness_EveryInstructionCompletes :
    (∀ r, ¬ refusedByParameter { start with sp := 0x8003 } (.jsl 0x123456) r) ∧
      (∀ r, ¬ refusedByParameter { start with sp := 0x8004, pc := 0x8005 } (.jsl 0x123456) r) ∧
    overwritesItself { start with sp := 0x8003 } (.jsl 0x123456) ∧
      ¬ overwritesItself { start with sp := 0x8004, pc := 0x8005 } (.jsl 0x123456) :=
  ⟨start_not_refused _ rfl rfl _, start_not_refused _ rfl rfl _, ⟨0x008003, by decide, by decide⟩, fun ⟨a, h, h'⟩ => clear_of (l := [0x008004, 0x008003, 0x008002]) (by decide) a h h'⟩

theorem witness_AbortRefusedUnlessModelled :
    State.abortModelled { start with schedule := [abortIn] } = false ∧ abortIn.abort = true := by decide

theorem witness_FlagsWrittenOnlyAsListed : mayWriteFlag start (.tsbDp 0x20) .n = false ∧ ∃ t, exec (.tsbDp 0x20) start = .next t :=
  ⟨by decide, _, rfl⟩

theorem witness_RegistersWrittenOnlyAsListed : ∃ t, exec .plb start = .next t := ⟨_, rfl⟩

end Sys2Proof.Tests
end

section
/-! PROOFS. What one instruction leaves of the machine: the stores it performs, the outcome they and the open parameters decide,
and what follows for memory. -/

namespace Sys2Proof.Machine

open Sys2Proof.Claim

/-! ## What the stores of a step leave -/

/-- From `s` to `t` memory and the platform's view change by the stores `ws` alone; the memory map and the open parameters of R6
stay. -/
structure StoresTo (s t : State) (ws : List Store) : Prop where
  mem : t.mem = (s.storeAll ws).mem
  deviceOut : t.deviceOut = (s.storeAll ws).deviceOut
  memMap : t.memMap = s.memMap
  copEmuBit4 : t.copEmuBit4 = s.copEmuBit4
  abortModelled : t.abortModelled = s.abortModelled
  emuStackCross : t.emuStackCross = s.emuStackCross
  wdmMeaning : t.wdmMeaning = s.wdmMeaning

/-- No pending event, no coming input and no step counter differs between `s` and `t`. -/
structure SameInputs (s t : State) : Prop where
  nmiPending : t.nmiPending = s.nmiPending
  abortPending : t.abortPending = s.abortPending
  schedule : t.schedule = s.schedule
  tick : t.tick = s.tick

theorem StoresTo.storeAll (s : State) (ws : List Store) : StoresTo s (s.storeAll ws) ws := by constructor <;> simp

theorem StoresTo.advance (s : State) (n : Nat) : StoresTo s (s.advance n) [] := by constructor <;> rfl

theorem StoresTo.pushOrd (s : State) (bs : List Byte) : StoresTo s (s.pushOrd bs) (s.ordStores bs) := by constructor <;> simp

theorem StoresTo.pushNew (s : State) (bs : List Byte) : StoresTo s (s.pushNew bs) (s.newStores bs) := by constructor <;> simp

theorem StoresTo.takeInterrupt (s : State) (k : Interrupt) (ra : Word) (bit4 : Bool) :
    StoresTo s (s.takeInterrupt k ra bit4) (s.ordStores (s.interruptFrame ra bit4)) := by constructor <;> simp

/-- The stores may start from any state with the memory, the map, the device writes and the parameters of `s`. -/
theorem StoresTo.trans_nil {s u t : State} {ws : List Store} (hu : StoresTo s u []) (ht : StoresTo u t ws) :
    StoresTo s t ws := by
  obtain ⟨hmem, hout⟩ := storeAll_congr hu.mem hu.memMap hu.deviceOut ws
  exact ⟨ht.mem.trans hmem, ht.deviceOut.trans hout, ht.memMap.trans hu.memMap, ht.copEmuBit4.trans hu.copEmuBit4,
    ht.abortModelled.trans hu.abortModelled, ht.emuStackCross.trans hu.emuStackCross, ht.wdmMeaning.trans hu.wdmMeaning⟩

theorem StoresTo.memOk {s t : State} {ws : List Store} (h : StoresTo s t ws) (hm : s.memOk) : t.memOk := by
  unfold State.memOk
  rw [h.mem]
  exact storeAll_memOk hm ws

/-- Memory that is not RAM keeps its bytes under any stores (R57, U11). -/
theorem StoresTo.read_of_not_ram {s t : State} {ws : List Store} (h : StoresTo s t ws) {a : Addr} (ha : s.kindAt a ≠ .ram) :
    Memory.read t.mem a.toNat = Memory.read s.mem a.toNat := by
  rw [h.mem]
  exact read_storeAll_of s ws a (.inr ha)

/-- Every address outside the stores reads as before, in every kind of access of the same step. -/
theorem StoresTo.busRead_of_not_mem {s t : State} {ws : List Store} (h : StoresTo s t ws) (ht : t.tick = s.tick)
    (k : AccessKind) {a : Addr} (ha : a ∉ ws.map Prod.fst) : t.busRead k a = s.busRead k a := by
  have htick : t.tick = (s.storeAll ws).tick := by rw [ht, storeAll_tick]
  have hmap : t.memMap = (s.storeAll ws).memMap := by rw [h.memMap, storeAll_memMap]
  rw [busRead_congr h.mem hmap htick]
  exact busRead_storeAll_of s ws k a (.inl ha)

/-! ## The stack pointer and the stored addresses of pushes -/

theorem downOrd_zero (e : Bool) (sp : Word) : downOrd e sp 0 = sp := by
  cases e <;> simp [downOrd]

/-- Ordinary pushes move S one by one (R61). -/
theorem ordDown_downOrd (e : Bool) (sp : Word) (k : Nat) : ordDown e (downOrd e sp k) = downOrd e sp (k + 1) := by
  have h (w : Nat) (v : BitVec w) : v - BitVec.ofNat w k - 1 = v - BitVec.ofNat w (k + 1) := by
    rw [BitVec.ofNat_add, BitVec.sub_sub]
    rfl
  cases e
  · exact h 16 sp
  · simp only [ordDown, downOrd, setLo, if_true, hiByte_wordOf, loByte_wordOf, h]

/-- S after ordinary pushes of `bs` is as many bytes down (R61). -/
theorem pushedSp_ord (e : Bool) (sp : Word) (bs : List Byte) : pushedSp (ordDown e) sp bs = downOrd e sp bs.length := by
  suffices h : ∀ k, pushedSp (ordDown e) (downOrd e sp k) bs = downOrd e sp (k + bs.length) by
    simpa [downOrd_zero] using h 0
  induction bs with
  | nil => exact fun _ => rfl
  | cons b bs ih =>
    intro k
    rw [pushedSp, ordDown_downOrd, ih, List.length_cons, Nat.add_right_comm, Nat.add_assoc]

/-- Ordinary pushes store from S downwards (R61). -/
theorem map_fst_pushStores_ord (e : Bool) (sp : Word) (bs : List Byte) :
    (pushStores (ordDown e) sp bs).map Prod.fst = (List.range' 0 bs.length).map (fun k => bank0 (downOrd e sp k)) := by
  suffices h : ∀ k, (pushStores (ordDown e) (downOrd e sp k) bs).map Prod.fst =
      (List.range' k bs.length).map (fun k => bank0 (downOrd e sp k)) by
    simpa only [downOrd_zero] using h 0
  induction bs with
  | nil => exact fun _ => rfl
  | cons b bs ih =>
    intro k
    rw [pushStores, ordDown_downOrd, List.map_cons, ih, List.length_cons, List.range'_succ, List.map_cons]

/-- The pushes of R63 move S as ordinary pushes do in native mode, in either mode. -/
theorem newDown_eq_ordDown : newDown = ordDown false := rfl

/-- S after the pushes of R63, before `EndN()`. -/
theorem pushedSp_new (sp : Word) (bs : List Byte) : pushedSp newDown sp bs = downOrd false sp bs.length := by
  rw [newDown_eq_ordDown, pushedSp_ord]

/-- The pushes of R63 store from S downwards on 16 bits. -/
theorem map_fst_newStores (s : State) (bs : List Byte) :
    (s.newStores bs).map Prod.fst = (List.range' 0 bs.length).map (fun k => bank0 (downOrd false s.sp k)) := by
  rw [State.newStores, newDown_eq_ordDown, map_fst_pushStores_ord]

theorem map_fst_ordStores (s : State) (bs : List Byte) :
    (s.ordStores bs).map Prod.fst = (List.range' 0 bs.length).map (fun k => bank0 (downOrd s.e s.sp k)) :=
  map_fst_pushStores_ord s.e s.sp bs

/-! ## The open cases of R63 and R66 -/

theorem unlessCrossing_unlessCrossing (s : State) (c c' : Bool) (r : Result) :
    s.unlessCrossing c (s.unlessCrossing c' r) = s.unlessCrossing (c || c') r := by
  cases c <;> cases c' <;> cases h : s.emuStackCross <;> simp [State.unlessCrossing, h]

theorem pushCrosses_eq_true {s : State} {n : Nat} : s.pushCrosses n = true ↔ s.e = true ∧ (loByte s.sp).toNat + 1 < n := by
  simp [State.pushCrosses]

theorem pullCrosses_eq_true {s : State} {n : Nat} : s.pullCrosses n = true ↔ s.e = true ∧ 0xFF < (loByte s.sp).toNat + n := by
  simp [State.pullCrosses]

theorem dirAddrOpen_eq_true {s : State} {dp : Byte} :
    s.dirAddrOpen dp = true ↔ s.e = true ∧ loByte s.d = 0 ∧ dp = 0xFF := by
  simp [State.dirAddrOpen]

end Sys2Proof.Machine
end

section
/-! PROOFS. The outcome of every instruction in one lemma, `exec_endsIn`: a case per instruction, each one of a few shapes. -/

namespace Sys2Proof.Machine

open Sys2Proof.Claim

/-- `exec i s` ends in `t` with the stores `ws`, but where a store hits the instruction's own bytes (R240) or, in an open case of
R63 and R66, which `c` says it is, the parameter refuses. -/
structure EndsIn (i : Instr) (s : State) (c : Bool) (ws : List Store) (t : State) : Prop where
  exec_eq : exec i s = s.unlessCrossing c (s.finish i.length ws t)
  crosses_iff : c = true ↔ s.e = true ∧ crossesPageOne s i
  addrs_iff : ∀ a, a ∈ ws.map Prod.fst ↔ a ∈ storeAddrs s i
  stores : StoresTo s t ws
  inputs : SameInputs s t

/-! ## The shapes -/

/-- An instruction that neither stores nor moves S by the rule of R63. -/
theorem EndsIn.of_next {i : Instr} {s t : State} (he : exec i s = .next t) (ha : storeAddrs s i = [] := by rfl)
    (hc : ¬ crossesPageOne s i := by simp [crossesPageOne]) (hs : StoresTo s t [] := by constructor <;> rfl)
    (hi : SameInputs s t := by constructor <;> rfl) : ∃ c ws t, EndsIn i s c ws t :=
  ⟨false, [], t, he, by simp [hc], by simp [ha], hs, hi⟩

/-- An instruction that pulls `n` bytes by the rule of R63. -/
theorem EndsIn.of_pullNew {i : Instr} {s t : State} {n : Nat} (he : exec i s = s.unlessCrossing (s.pullCrosses n) (.next t))
    (ha : storeAddrs s i = [] := by rfl)
    (hc : crossesPageOne s i ↔ 0xFF < (loByte s.sp).toNat + n := by simp [crossesPageOne])
    (hs : StoresTo s t [] := by constructor <;> rfl) (hi : SameInputs s t := by constructor <;> rfl) :
    ∃ c ws t, EndsIn i s c ws t :=
  ⟨s.pullCrosses n, [], t, he, by rw [hc, pullCrosses_eq_true], by simp [ha], hs, hi⟩

/-- An instruction with stores, none of them by the rule of R63. -/
theorem EndsIn.of_finish {i : Instr} {s t : State} {ws : List Store} (he : exec i s = s.finish i.length ws t)
    (hc : ¬ crossesPageOne s i) (ha : ∀ a, a ∈ ws.map Prod.fst ↔ a ∈ storeAddrs s i) (hs : StoresTo s t ws)
    (hi : SameInputs s t) : ∃ c ws t, EndsIn i s c ws t :=
  ⟨false, ws, t, he, by simp [hc], ha, hs, hi⟩

/-- An ordinary push of one or two bytes (R61). -/
theorem EndsIn.of_pushOrdOp {i : Instr} {s : State} {bs : List Byte} (he : exec i s = s.pushOrdOp i.length bs)
    (ha : (s.ordStores bs).map Prod.fst = storeAddrs s i) (hc : ¬ crossesPageOne s i := by simp [crossesPageOne]) :
    ∃ c ws t, EndsIn i s c ws t :=
  EndsIn.of_finish he hc (by simp [ha]) ((StoresTo.advance s _).trans_nil (StoresTo.pushOrd _ bs)) (by constructor <;> simp)

/-- A push of a word by the rule of R63, with the open cases `c` beside those of the push (R66). -/
theorem EndsIn.of_pushWordNew {i : Instr} {s : State} {w : Word} {c : Bool}
    (he : exec i s = s.unlessCrossing c (s.pushNewOp i.length (pushOrder w)))
    (hc : c = true ∨ s.e = true ∧ (loByte s.sp).toNat + 1 < 2 ↔ s.e = true ∧ crossesPageOne s i)
    (ha : storeAddrs s i = [bank0 s.sp, bank0 (s.sp - 1)] := by rfl) : ∃ c ws t, EndsIn i s c ws t := by
  refine ⟨c || s.pushCrosses 2, s.newStores (pushOrder w), (s.advance i.length).pushNew (pushOrder w), ?_, ?_, ?_,
    (StoresTo.advance s _).trans_nil (StoresTo.pushNew _ _), by constructor <;> simp⟩
  · rw [he, State.pushNewOp, unlessCrossing_unlessCrossing]
    rfl
  · rw [Bool.or_eq_true, pushCrosses_eq_true, hc]
  · rw [ha]
    exact fun _ => Iff.rfl

/-- STZ in any of its modes (R171). -/
theorem EndsIn.of_storeZero {i : Instr} {s : State} {o : Operand} (he : exec i s = s.storeZero i.length o)
    (ha : storeAddrs s i = operandAddrs s o.lo o.hi) (hc : ¬ crossesPageOne s i := by simp [crossesPageOne]) :
    ∃ c ws t, EndsIn i s c ws t := by
  refine EndsIn.of_finish he hc ?_ ((StoresTo.advance s _).trans_nil (StoresTo.storeAll _ _)) (by constructor <;> simp)
  intro a
  cases hm : s.flag .m <;> simp [ha, State.zeroStores, operandAddrs, hm]

/-- TSB and TRB in any of their modes (R172, R173). -/
theorem EndsIn.of_testAndWrite {i : Instr} {s : State} {o : Operand} {f : Word → Word → Word}
    (he : exec i s = s.testAndWrite i.length o f) (ha : storeAddrs s i = operandAddrs s o.lo o.hi)
    (hc : ¬ crossesPageOne s i := by simp [crossesPageOne]) : ∃ c ws t, EndsIn i s c ws t := by
  have hs : StoresTo s { s.advance i.length with p := setTestZ s.p s.accOp (s.readOp o) } [] := by constructor <;> rfl
  refine EndsIn.of_finish he hc ?_ (hs.trans_nil (StoresTo.storeAll _ _)) (by constructor <;> simp)
  intro a
  cases hm : s.flag .m <;> simp [ha, State.rmwStores, operandAddrs, hm, or_comm]

/-- One iteration of MVN or MVP (R122). -/
theorem EndsIn.of_blockStep {i : Instr} {s : State} {dir : Word} {dst src : Byte} (he : exec i s = s.blockStep dir dst src)
    (hl : i.length = 3 := by rfl) (ha : storeAddrs s i = [longAddr dst s.y] := by rfl)
    (hc : ¬ crossesPageOne s i := by simp [crossesPageOne]) : ∃ c ws t, EndsIn i s c ws t := by
  rw [State.blockStep, ← hl] at he
  refine EndsIn.of_finish he hc (by simp [ha, State.moveStores]) ?_ ?_ <;> constructor <;> simp

/-! ## The instructions -/

/-- The direct-page addresses of the model are those the statements name (R65). -/
theorem bank0_dirAddr (s : State) (off : Nat) : bank0 (s.dirAddr off) = directAddr s off := by
  simp only [State.dirAddr, directAddr, apply_ite bank0, Bool.and_eq_true, decide_eq_true_eq]

theorem operandAddrs_directPage (s : State) (dp : Byte) :
    operandAddrs s (s.directPage dp).lo (s.directPage dp).hi =
      operandAddrs s (directAddr s dp.toNat) (directAddr s (dp.toNat + 1)) := by
  simp only [State.directPage, bank0_dirAddr]

theorem operandAddrs_directPageX (s : State) (dp : Byte) :
    operandAddrs s (s.directPageX dp).lo (s.directPageX dp).hi =
      operandAddrs s (directAddr s (dp.toNat + s.x.toNat)) (directAddr s (dp.toNat + s.x.toNat + 1)) := by
  simp only [State.directPageX, bank0_dirAddr]

/-- The frame of an interrupt lies at the addresses that the statements name for a COP (R204). -/
theorem map_fst_interruptFrame (s : State) (sig : Byte) (ra : Word) (bit4 : Bool) :
    (s.ordStores (s.interruptFrame ra bit4)).map Prod.fst = storeAddrs s (.cop sig) := by
  have hcop : storeAddrs s (.cop sig) = if s.e then [bank0 s.sp, bank0 (downOrd true s.sp 1), bank0 (downOrd true s.sp 2)]
      else [bank0 s.sp, bank0 (s.sp - 1), bank0 (s.sp - 2), bank0 (s.sp - 3)] := rfl
  rw [map_fst_ordStores, hcop]
  cases he : s.e
  · simp [State.interruptFrame, he, List.range', downOrd]
  · simp [State.interruptFrame, he, List.range', downOrd_zero]

/-- PHX and PHY store one byte or two, by the index width (R157, R158). -/
theorem map_fst_indexBytes (s : State) (v : Word) :
    (s.ordStores (s.indexBytes v)).map Prod.fst =
      if s.flag .x then [bank0 s.sp] else [bank0 s.sp, bank0 (downOrd s.e s.sp 1)] := by
  rw [map_fst_ordStores]
  cases hx : s.flag .x <;> simp [State.indexBytes, pushOrder, hx, List.range', downOrd_zero]

/-- JSL stores three bytes from S downwards on 16 bits (R103). -/
theorem newStores_callFrame (s : State) (ra : Word) :
    s.newStores (s.pb :: pushOrder ra) =
      [(bank0 s.sp, s.pb), (bank0 (s.sp - 1), hiByte ra), (bank0 (s.sp - 2), loByte ra)] := by
  simp [State.newStores, pushStores, pushOrder, newDown, BitVec.sub_sub]

theorem exec_wdm_of_nop {s : State} (h : s.wdmMeaning = .twoByteNop) (b : Byte) : exec (.wdm b) s = .next (s.advance 2) := by
  simp [exec, execWdm, h]

theorem exec_wdm_of_refuse {s : State} (h : s.wdmMeaning = .refuse) (b : Byte) : exec (.wdm b) s = .refused .wdmReserved := by
  simp [exec, execWdm, h]

/-- The parameter `WdmMeaning` does not stand against this execution, which it can only where the instruction is WDM (R113). -/
abbrev wdmCompletes (i : Instr) (s : State) : Prop := ∀ b, i = .wdm b → s.wdmMeaning = .twoByteNop

/-- Where it does not, the instruction is a refused WDM. -/
theorem exec_of_not_wdmCompletes {i : Instr} {s : State} (h : ¬ wdmCompletes i s) : exec i s = .refused .wdmReserved := by
  simp only [wdmCompletes, not_forall] at h
  obtain ⟨b, rfl, hm⟩ := h
  cases hm' : s.wdmMeaning with
  | twoByteNop => exact absurd hm' hm
  | refuse => exact exec_wdm_of_refuse hm' b

/-- EVERY INSTRUCTION ENDS IN A STATE that its stores alone separate from `s` as memory and platform go, but where an open parameter
or R240 refuses it; only WDM has a parameter of its own. -/
theorem exec_endsIn {i : Instr} {s : State} (hw : wdmCompletes i s) : ∃ c ws t, EndsIn i s c ws t := by
  cases i with
  | cop sig =>
    exact EndsIn.of_finish (i := .cop sig) rfl (by simp [crossesPageOne])
      (fun _ => by rw [map_fst_interruptFrame s sig])
      ((StoresTo.advance s 2).trans_nil (StoresTo.takeInterrupt _ _ _ _)) (by constructor <;> simp)
  | jsl target =>
    exact ⟨s.pushCrosses 3, s.newStores (s.pb :: pushOrder (s.pc + 3)), _, rfl,
      by simp [crossesPageOne, pushCrosses_eq_true], fun _ => by rw [newStores_callFrame]; rfl,
      by constructor <;> simp, by constructor <;> simp⟩
  | rtl => exact EndsIn.of_pullNew rfl
  | plb => exact EndsIn.of_pullNew rfl
  | pld => exact EndsIn.of_pullNew rfl
  | pea w => exact EndsIn.of_pushWordNew (c := false) rfl (by simp [crossesPageOne])
  | per r => exact EndsIn.of_pushWordNew (c := false) rfl (by simp [crossesPageOne])
  | phd => exact EndsIn.of_pushWordNew (c := false) rfl (by simp [crossesPageOne])
  | pei dp =>
    have hpei : crossesPageOne s (.pei dp) ↔ (loByte s.sp).toNat + 1 < 2 ∨ dp = 0xFF ∧ loByte s.d = 0 := by
      simp [crossesPageOne]
    refine EndsIn.of_pushWordNew rfl ?_
    rw [dirAddrOpen_eq_true, hpei]
    tauto
  | phb => exact EndsIn.of_pushOrdOp rfl rfl
  | phk => exact EndsIn.of_pushOrdOp rfl rfl
  | phx => exact EndsIn.of_pushOrdOp rfl (map_fst_indexBytes s s.x)
  | phy => exact EndsIn.of_pushOrdOp rfl (map_fst_indexBytes s s.y)
  | plx => exact EndsIn.of_next rfl (hs := by constructor <;> simp [State.storeAll]) (hi := by constructor <;> simp)
  | ply => exact EndsIn.of_next rfl (hs := by constructor <;> simp [State.storeAll]) (hi := by constructor <;> simp)
  | stzDp dp => exact EndsIn.of_storeZero rfl (operandAddrs_directPage s dp).symm
  | stzDpX dp => exact EndsIn.of_storeZero rfl (operandAddrs_directPageX s dp).symm
  | stzAbs abs => exact EndsIn.of_storeZero (o := s.absolute abs) rfl rfl
  | stzAbsX abs => exact EndsIn.of_storeZero (o := s.absoluteX abs) rfl rfl
  | tsbDp dp => exact EndsIn.of_testAndWrite rfl (operandAddrs_directPage s dp).symm
  | tsbAbs abs => exact EndsIn.of_testAndWrite (o := s.absolute abs) rfl rfl
  | trbDp dp => exact EndsIn.of_testAndWrite rfl (operandAddrs_directPage s dp).symm
  | trbAbs abs => exact EndsIn.of_testAndWrite (o := s.absolute abs) rfl rfl
  | mvn dst src => exact EndsIn.of_blockStep rfl
  | mvp dst src => exact EndsIn.of_blockStep rfl
  | wdm b => exact EndsIn.of_next (exec_wdm_of_nop (hw b rfl) b)
  | bra r => exact EndsIn.of_next rfl
  | brl r => exact EndsIn.of_next rfl
  | jml abs => exact EndsIn.of_next rfl
  | rep m => exact EndsIn.of_next rfl
  | sep m => exact EndsIn.of_next rfl
  | xce => exact EndsIn.of_next rfl
  | stp => exact EndsIn.of_next rfl
  | wai => exact EndsIn.of_next rfl
  | tcs => exact EndsIn.of_next rfl
  | tcd => exact EndsIn.of_next rfl
  | tdc => exact EndsIn.of_next rfl
  | tsc => exact EndsIn.of_next rfl
  | txy => exact EndsIn.of_next rfl
  | tyx => exact EndsIn.of_next rfl
  | xba => exact EndsIn.of_next rfl

end Sys2Proof.Machine
end

section
/-! PROOFS. What follows from `exec_endsIn` for one instruction, and from `perform_cases` for a step: memory, the map and the open
parameters; the refusals. -/

namespace Sys2Proof.Machine

open Sys2Proof.Claim

/-! ## One instruction -/

theorem EndsIn.clear_iff {i : Instr} {s t : State} {c : Bool} {ws : List Store} (h : EndsIn i s c ws t) :
    s.clearOfOwn i.length (ws.map Prod.fst) ↔ ¬ overwritesItself s i := by
  simp only [State.clearOfOwn, overwritesItself, h.addrs_iff, not_exists, not_and]

theorem EndsIn.exec_of_open {i : Instr} {s t : State} {c : Bool} {ws : List Store} (h : EndsIn i s c ws t)
    (hr : s.emuStackCross = .refuse) (he : s.e = true) (hc : crossesPageOne s i) :
    exec i s = .refused .stackLeavesPageOne := by
  rw [h.exec_eq, unlessCrossing_of_refuse (h.crosses_iff.2 ⟨he, hc⟩) hr]

theorem EndsIn.exec_of_settled {i : Instr} {s t : State} {c : Bool} {ws : List Store} (h : EndsIn i s c ws t)
    (hc : c = false ∨ s.emuStackCross = .described) : exec i s = s.finish i.length ws t := by
  rw [h.exec_eq, unlessCrossing_of hc]

/-- The next state of an instruction is the one it ends in. -/
theorem exec_next_endsIn {i : Instr} {s t : State} (h : exec i s = .next t) : ∃ c ws, EndsIn i s c ws t := by
  have hw : wdmCompletes i s := by
    by_contra hno
    rw [exec_of_not_wdmCompletes hno] at h
    cases h
  obtain ⟨c, ws, u, hu⟩ := exec_endsIn hw
  rw [hu.exec_eq, unlessCrossing_eq_next, finish_eq_next] at h
  obtain ⟨-, -, rfl⟩ := h
  exact ⟨c, ws, hu⟩

/-- The refusals that an instruction can answer (R6, R240). -/
theorem exec_refused_cases {i : Instr} {s : State} {r : Refusal} (h : exec i s = .refused r) :
    r = .wdmReserved ∨ r = .stackLeavesPageOne ∨ r = .selfOverwrite := by
  by_cases hw : wdmCompletes i s
  · obtain ⟨c, ws, t, ht⟩ := exec_endsIn hw
    rw [ht.exec_eq, State.unlessCrossing, State.finish] at h
    split at h
    · exact .inr (.inl (Host.Outcome.refused.inj h).symm)
    · split at h
      · exact .inr (.inr (Host.Outcome.refused.inj h).symm)
      · cases h
  · rw [exec_of_not_wdmCompletes hw] at h
    exact .inl (Host.Outcome.refused.inj h).symm

theorem exec_of_refusedByParameter {i : Instr} {s : State} {r : Refusal} (h : refusedByParameter s i r) :
    exec i s = .refused r := by
  rcases h with ⟨hm, ⟨b, rfl⟩, rfl⟩ | ⟨hr, he, hc, rfl⟩
  · exact exec_wdm_of_refuse hm b
  · have hw : wdmCompletes i s := by
      rintro b rfl
      simp [crossesPageOne] at hc
    obtain ⟨c, ws, t, ht⟩ := exec_endsIn hw
    exact ht.exec_of_open hr he hc

/-- An execution that no parameter refuses ends as its own stores decide (R240). -/
theorem exec_of_not_refused {i : Instr} {s : State} (h : ∀ r, ¬ refusedByParameter s i r) :
    ∃ c ws t, EndsIn i s c ws t ∧ exec i s = s.finish i.length ws t := by
  have hw : wdmCompletes i s := by
    intro b hb
    cases hm : s.wdmMeaning with
    | twoByteNop => rfl
    | refuse => exact absurd (.inl ⟨hm, ⟨b, hb⟩, rfl⟩) (h .wdmReserved)
  obtain ⟨c, ws, t, ht⟩ := exec_endsIn hw
  refine ⟨c, ws, t, ht, ht.exec_of_settled ?_⟩
  cases hs : s.emuStackCross with
  | described => exact .inr rfl
  | refuse =>
    refine .inl (Bool.eq_false_iff.2 fun hc => ?_)
    obtain ⟨he, hcross⟩ := ht.crosses_iff.1 hc
    exact h .stackLeavesPageOne (.inr ⟨hs, he, hcross, rfl⟩)

/-- Settles O55: the parameters refuse as they say, and where they do not, the stores decide between R240 and the next state. -/
theorem everyInstructionCompletes : Obligations.EveryInstructionCompletes := by
  refine fun i s => ⟨fun r h => exec_of_refusedByParameter h, fun h ho => ?_, fun h ho => ?_⟩
  · obtain ⟨c, ws, t, ht, hexec⟩ := exec_of_not_refused h
    exact hexec.trans (finish_of_hit (fun hclear => ht.clear_iff.1 hclear ho) t)
  · obtain ⟨c, ws, t, ht, hexec⟩ := exec_of_not_refused h
    exact ⟨t, hexec.trans (finish_of_clear (ht.clear_iff.2 ho) t),
      fun k a ha => ht.stores.busRead_of_not_mem ht.inputs.tick k (mt (ht.addrs_iff a).1 ha)⟩

/-! ## One step -/

theorem StoresTo.hardwareInterrupt (s : State) (k : Interrupt) :
    StoresTo s (s.hardwareInterrupt k) (s.ordStores (s.interruptFrame s.pc false)) := by
  have h := StoresTo.takeInterrupt s k s.pc false
  exact ⟨h.mem, h.deviceOut, h.memMap, h.copEmuBit4, h.abortModelled, h.emuStackCross, h.wdmMeaning⟩

/-- The stores of an aborted instruction stand (R208). -/
theorem StoresTo.discardRegisters {s t : State} {ws : List Store} (h : StoresTo s t ws) :
    StoresTo s (s.discardRegisters t) ws :=
  ⟨h.mem, h.deviceOut, rfl, rfl, rfl, rfl, rfl⟩

/-- A step that no reset cuts short changes memory, map, platform and parameters by some stores alone. -/
theorem perform_storesTo {s t : State} (h : s.perform = .next t) : ∃ ws, StoresTo s t ws := by
  have hbegun : StoresTo s s.begun [] := by constructor <;> rfl
  have hrunning : StoresTo s { s.begun with runState := .running } [] := by constructor <;> rfl
  rcases perform_cases h with rfl | rfl | ⟨k, rfl⟩ | ⟨i, v, -, hv, rfl⟩
  · exact ⟨[], hbegun⟩
  · exact ⟨[], by constructor <;> rfl⟩
  · exact ⟨_, hbegun.trans_nil (StoresTo.hardwareInterrupt _ k)⟩
  · obtain ⟨_, ws, hend⟩ := exec_next_endsIn hv
    refine ⟨ws, hrunning.trans_nil ?_⟩
    split
    · exact hend.stores.discardRegisters
    · exact hend.stores

/-- Settles O12: a step's stores leave all but RAM alone, and a reset that cuts it short mixes the two memories. -/
theorem stepWritesOnlyRam : Obligations.StepWritesOnlyRam := by
  intro s t hm h
  obtain ⟨u, hu, rfl⟩ := step_cases h
  obtain ⟨ws, hws⟩ := perform_storesTo hu
  split
  · refine ⟨rfl, rfl, rfl, rfl, rfl, fun a ha => ?_⟩
    obtain ⟨-, hcut⟩ := Memory.cut_spec (Config.cutWriteLands s.begun.tick) (old := s.mem) hm (hws.memOk hm)
    exact (hcut a.toNat).elim id (fun hnew => hnew.trans (hws.read_of_not_ram ha))
  · exact ⟨hws.memMap, hws.copEmuBit4, hws.abortModelled, hws.emuStackCross, hws.wdmMeaning,
      fun a ha => hws.read_of_not_ram ha⟩

theorem enter_ne_abortUnmodelled (s : State) (k : Interrupt) : s.enter k ≠ .abortUnmodelled := by
  unfold State.enter
  split <;> simp

theorem boundary_ne_abortUnmodelled (s : State) : s.boundary ≠ .abortUnmodelled := by
  unfold State.boundary
  split_ifs <;> simp [enter_ne_abortUnmodelled]

/-- Only an ABORT in a machine without it makes a step answer that refusal at the boundary (U7). -/
theorem action_eq_abortUnmodelled {s : State} (h : s.action = .abortUnmodelled) :
    s.inputsNow.abort = true ∧ s.abortModelled = false := by
  unfold State.action at h
  split at h
  · next hc => simpa using hc
  · unfold State.modelledAction at h
    split at h
    · split at h <;> cases h
    · split_ifs at h
      exact absurd h (boundary_ne_abortUnmodelled s)
    · exact absurd h (boundary_ne_abortUnmodelled s)

theorem perform_of_step_refused {s : State} {r : Refusal} (h : step s = .refused r) : s.perform = .refused r := by
  unfold step at h
  split at h
  · split at h <;> cases h
  · cases h
  · next hp => exact hp.trans h

/-- A running instruction is refused by the decoder, or as `exec` refuses it. -/
theorem runInstruction_refused {s : State} {aborted : Bool} {r : Refusal} (h : s.runInstruction aborted = .refused r) :
    (∃ op, r = .outsideSubset op) ∨ ∃ i, exec i s = .refused r := by
  unfold State.runInstruction at h
  split at h
  · next op _ => exact .inl ⟨op, (Host.Outcome.refused.inj h).symm⟩
  · next i _ =>
    split at h
    · split at h <;> cases h
    · cases h
    · next he => exact .inr ⟨i, he.trans h⟩

/-- Settles O58: the boundary refuses an unmodelled ABORT first, and no instruction answers that refusal. -/
theorem abortRefusedUnlessModelled : Obligations.AbortRefusedUnlessModelled := by
  intro s
  refine ⟨fun h => ?_, fun ⟨ha, hm⟩ => step_abortNotModelled ha hm⟩
  have hp := perform_of_step_refused h
  unfold State.perform at hp
  cases hact : s.action with
  | abortUnmodelled => exact action_eq_abortUnmodelled hact
  | execute =>
    rw [hact] at hp
    rcases runInstruction_refused hp with ⟨op, hop⟩ | ⟨i, hi⟩
    · cases hop
    · rcases exec_refused_cases hi with hr | hr | hr <;> cases hr
  | stay | stuck | reset | interrupt k | abortMisplaced => simp [hact] at hp

end Sys2Proof.Machine
end

section
/-! PROOFS. The decoder's opcode bytes, and the steps whose boundary lets the program go on or does nothing. -/

namespace Sys2Proof.Machine

open Sys2Proof.Claim

/-! ## Opcode bytes -/

/-- The decoder takes the instruction from the opcode byte alone, or names that byte (R80, R87). -/
theorem decode_cases (b0 b1 b2 b3 : Byte) :
    (∃ i, decode b0 b1 b2 b3 = .ok i ∧ i.opcode = b0) ∨ decode b0 b1 b2 b3 = .error (.outsideSubset b0) := by
  unfold decode
  split
  on_goal 42 => exact .inr rfl
  all_goals next hb => exact .inl ⟨_, rfl, BitVec.eq_of_toNat_eq hb.symm⟩

theorem opcode_mem_opcodes (i : Instr) : i.opcode ∈ opcodes := by
  cases i <;> simp [Instr.opcode, opcodes]

theorem decode_of_mem_opcodes (b1 b2 b3 : Byte) : ∀ b0 ∈ opcodes, ∃ i, decode b0 b1 b2 b3 = .ok i := by
  simp only [opcodes, List.forall_mem_cons]
  and_intros
  on_goal 42 => exact fun _ h => absurd h List.not_mem_nil
  all_goals exact ⟨_, rfl⟩

theorem decode_of_not_mem_opcodes {b0 : Byte} (h : b0 ∉ opcodes) (b1 b2 b3 : Byte) :
    decode b0 b1 b2 b3 = .error (.outsideSubset b0) := by
  rcases decode_cases b0 b1 b2 b3 with ⟨i, -, rfl⟩ | he
  · exact absurd (opcode_mem_opcodes i) h
  · exact he

/-- Settles O3, opcode byte by opcode byte of R85. -/
theorem onlySubsetOpcodesDecode : Obligations.OnlySubsetOpcodesDecode :=
  fun b0 b1 b2 b3 => ⟨decode_of_mem_opcodes b1 b2 b3 b0, fun h => decode_of_not_mem_opcodes h b1 b2 b3⟩

/-! ## Boundaries that let the program go on -/

theorem runInstruction_of_ok {s : State} {i : Instr} (h : s.fetch = .ok i) : s.runInstruction false = exec i s := by
  simp only [State.runInstruction, h]
  cases exec i s <;> rfl

theorem runInstruction_of_outside {s : State} (h : s.codeByte 0 ∉ opcodes) (aborted : Bool) :
    s.runInstruction aborted = .refused (.outsideSubset (s.codeByte 0)) := by
  unfold State.runInstruction State.fetch
  rw [decode_of_not_mem_opcodes h]

/-- The step's own view of the boundary behind it is that of the statements where no NMI edge is latched. -/
theorem begun_eq_pastBoundary {s : State} (h : s.runState = .stopped ∨ s.inputsNow.nmi = false) :
    s.begun = pastBoundary s := by
  unfold State.begun pastBoundary
  rcases h with h | h <;> simp [h, State.nmiNow]

theorem irqPasses_of_masked {s : State} (hc : s.iJustChanged = false) (hi : s.flag .i = true) : s.irqPasses = false := by
  simp [State.irqPasses, hc, hi]

/-- R207 line 5: with no event to take the boundary executes. -/
theorem boundary_of_programGoesOn {s : State} (h : programGoesOn s) : s.boundary = .execute := by
  obtain ⟨hreset, -, -, hpending, hlatch, hnmi, hirq⟩ := h
  have hnoIrq : (s.inputsNow.irq && s.irqPasses) = false := by
    rcases hirq with hirq | ⟨hc, hi⟩
    · simp [hirq]
    · simp [irqPasses_of_masked hc hi]
  simp [State.boundary, State.abortDue, State.nmiNow, hreset, hpending, hlatch, hnmi, hnoIrq]

/-- A boundary that the program gets past, running or woken by a masked IRQ, is followed by the instruction at `PB : PC`. -/
theorem step_of_programGoesOn {s : State} (h : programGoesOn s)
    (hr : s.runState = .running ∨ s.runState = .waiting ∧ s.inputsNow.irq = true) :
    step s = ({ pastBoundary s with runState := .running } : State).runInstruction false := by
  have hboundary := boundary_of_programGoesOn h
  obtain ⟨hreset, hduring, habort, hpending, -, hnmi, -⟩ := h
  have hact : s.action = .execute := by
    rw [action_of_modelled (by simp [habort])]
    rcases hr with hr | ⟨hr, hirq⟩
    · simp [State.modelledAction, hr, hboundary]
    · simp [State.modelledAction, State.abortDue, hr, hreset, habort, hpending, hirq, hboundary]
  rw [step_eq_perform hduring, State.perform, hact, habort, begun_eq_pastBoundary (.inr hnmi)]

theorem pastBoundary_running {s : State} (h : s.runState = .running) :
    ({ pastBoundary s with runState := .running } : State) = pastBoundary s := by
  ext1 <;> simp [pastBoundary, h]

/-- Settles O5: line 5 of R207 is reached, and the fetched instruction is executed. -/
theorem stepRunsDecodedInstruction : Obligations.StepRunsDecodedInstruction := by
  intro s i hr hgo hfetch
  rw [step_of_programGoesOn hgo (.inl hr), pastBoundary_running hr, runInstruction_of_ok hfetch]

/-- Settles O6: line 5 of R207 is reached, and the decoder names the byte it refuses. -/
theorem stepRefusesOutsideSubset : Obligations.StepRefusesOutsideSubset := by
  intro s hr hgo hbyte
  rw [step_of_programGoesOn hgo (.inl hr), pastBoundary_running hr, runInstruction_of_outside hbyte]

/-! ## Boundaries at which nothing happens -/

/-- Settles O15: what the step does at the boundary of a stopped machine is `stay`, whatever NMI, IRQ and ABORT are. -/
theorem stoppedUntilReset : Obligations.StoppedUntilReset := by
  intro s hstop hreset hduring habort
  have hact : s.action = .stay := by
    rw [action_of_modelled habort]
    simp [State.modelledAction, hstop, hreset]
  rw [step_eq_perform hduring, State.perform, hact, begun_eq_pastBoundary (.inl hstop)]

/-- A wait at a boundary without an event ends only if a later boundary may bring one (R112, D12). -/
theorem action_of_quiet_wait {s : State} (hw : s.runState = .waiting) (hlatch : s.nmiPending = false)
    (hpending : s.abortPending = false) (hq : s.inputsNow = Inputs.quiet) :
    s.action = if s.schedule = [] then .stuck else .stay := by
  rw [action_of_modelled (by simp [hq, Inputs.quiet])]
  simp [State.modelledAction, State.abortDue, State.nmiNow, hw, hlatch, hpending, hq, Inputs.quiet]

/-- Settles O16: the quiet boundary stays or is stuck by the schedule; a masked IRQ wakes the machine, which goes on. -/
theorem waitingUntilInput : Obligations.WaitingUntilInput := by
  refine ⟨fun s hw hlatch hpending hq => ?_, fun s i hw hgo hirq hfetch => ?_⟩
  · have hact := action_of_quiet_wait hw hlatch hpending hq
    have hnmi : s.inputsNow.nmi = false := by rw [hq]; rfl
    rw [step_eq_perform (by rw [hq]; rfl), State.perform, hact, begun_eq_pastBoundary (.inr hnmi)]
    exact ⟨fun h => by simp [h], fun h => by simp [h]⟩
  · rw [step_of_programGoesOn hgo (.inr ⟨hw, hirq⟩)]
    exact runInstruction_of_ok hfetch

/-! ## STP, WAI and WDM -/

/-- Settles O24: their meanings are the statement's, WDM's by the two values of its parameter. -/
theorem stopWaitAndReservedOpcode : Obligations.StopWaitAndReservedOpcode := by
  refine ⟨fun _ _ _ => rfl, fun _ _ _ => rfl, fun _ _ _ => rfl, fun s => ⟨rfl, rfl, fun b => ⟨fun h => ?_, fun h => ?_⟩⟩⟩
  · exact exec_wdm_of_nop h b
  · exact exec_wdm_of_refuse h b

end Sys2Proof.Machine
end

section
/-! PROOFS. The pushes and pulls of R63 where their open cases are settled: what they store, load and leave in S. -/

namespace Sys2Proof.Machine

open Sys2Proof.Claim

/-! ## Pushes -/

/-- The offsets below S that a push of up to 256 bytes stores to are different. -/
theorem downOrd_inj {e : Bool} {sp : Word} {j k : Nat} (hj : j < 256) (hk : k < 256) (h : downOrd e sp j = downOrd e sp k) :
    j = k := by
  cases e
  · simp only [downOrd, Bool.false_eq_true, if_false] at h
    bv_omega
  · have hlo := congrArg loByte h
    simp only [downOrd, if_true, loByte_wordOf] at hlo
    bv_omega

theorem nodup_ordAddrs (e : Bool) (sp : Word) {n : Nat} (hn : n ≤ 256) :
    ((List.range' 0 n).map (fun k => bank0 (downOrd e sp k))).Nodup := by
  refine List.Nodup.map_on (fun j hj k hk h => ?_) List.nodup_range'
  simp only [List.mem_range'_1] at hj hk
  exact downOrd_inj (by omega) (by omega) (bank0_inj.1 h)

theorem nodup_newStores (s : State) {bs : List Byte} (hn : bs.length ≤ 256) : ((s.newStores bs).map Prod.fst).Nodup := by
  rw [map_fst_newStores]
  exact nodup_ordAddrs false s.sp hn

theorem StoresTo.afterStores {s t : State} {ws : List Store} (h : StoresTo s t ws) (hm : s.memOk)
    (hd : (ws.map Prod.fst).Nodup) (ht : t.tick = s.tick) : s.afterStores t ws :=
  afterStores_congr (afterStores_storeAll hm hd) h.mem (by rw [h.memMap, storeAll_memMap]) h.deviceOut
    (by rw [ht, storeAll_tick])

/-- What a push by the rule of R63 leaves: PC and S moved, memory and the platform changed by the stores. -/
theorem pushNew_advance_eq (s : State) (n : Nat) (bs : List Byte) :
    (s.advance n).pushNew bs =
      { s with
        pc := s.pc + BitVec.ofNat 16 n
        sp := ended s.e (downOrd false s.sp bs.length)
        mem := ((s.advance n).pushNew bs).mem
        deviceOut := ((s.advance n).pushNew bs).deviceOut } := by
  ext1 <;> simp [pushedSp_new, ended, endN]

/-- An instruction that pushes a word by the rule of R63, in no open case or with the parameter as described. -/
theorem pushesWordNew_of {i : Instr} {n : Nat} {w : Word} {s : State} (he : exec i s = s.pushNewOp n (pushOrder w))
    (hc : s.pushCrosses 2 = false ∨ s.emuStackCross = .described) : pushesWordNew i n w s := by
  intro hm hclear
  have hexec : exec i s = .next ((s.advance n).pushNew (pushOrder w)) :=
    he.trans ((unlessCrossing_of hc _).trans (finish_of_clear hclear _))
  exact ⟨_, hexec, pushNew_advance_eq s n _,
    ((StoresTo.advance s n).trans_nil (StoresTo.pushNew _ _)).afterStores hm
      (nodup_newStores s (by simp [pushOrder])) (by simp)⟩

/-- What JSL leaves where it completes: S moved, PC and PB from the operand, memory and the platform changed by the stores. -/
theorem pushNew_jump_eq (s : State) (bs : List Byte) (target : Addr) :
    ({ s.pushNew bs with pc := offsetOf target, pb := bankOf target } : State) =
      { s with
        pc := target.extractLsb' 0 16
        pb := target.extractLsb' 16 8
        sp := ended s.e (downOrd false s.sp bs.length)
        mem := (s.pushNew bs).mem
        deviceOut := (s.pushNew bs).deviceOut } := by
  ext1 <;> simp [pushedSp_new, ended, endN, offsetOf, bankOf]

/-- JSL in no open case or with the parameter as described. -/
theorem calls_of {target : Addr} {s : State} (hc : s.pushCrosses 3 = false ∨ s.emuStackCross = .described) :
    calls target s := by
  intro hm hclear
  have hframe := newStores_callFrame s (s.pc + 3)
  have hstores : StoresTo s { s.pushNew (s.pb :: pushOrder (s.pc + 3)) with pc := offsetOf target, pb := bankOf target }
      (s.newStores (s.pb :: pushOrder (s.pc + 3))) := by constructor <;> simp
  have hnodup := nodup_newStores s (bs := s.pb :: pushOrder (s.pc + 3)) (by simp [pushOrder])
  refine ⟨_, (unlessCrossing_of hc _).trans (finish_of_clear (by rw [hframe]; exact hclear) _), pushNew_jump_eq s _ target, ?_⟩
  rw [← hframe]
  exact hstores.afterStores hm hnodup (by simp)

/-! ## Pulls -/

theorem flagIn_and (p m : Byte) (f : Flag) : flagIn (p &&& m) f = (flagIn p f && flagIn m f) := by
  simp [flagIn]

/-- The status byte that the statements write out with N and Z masked in. -/
theorem flagIn_maskedNZ (p h : Byte) (z : Bool) (g : Flag) :
    flagIn ((p &&& 0x7D) ||| (h &&& 0x80) ||| (if z then 0x02 else 0x00)) g =
      if g = .z then z else if g = .n then h.getLsbD 7 else flagIn p g := by
  rw [flagIn_or, flagIn_or, flagIn_and, flagIn_and]
  cases g <;> cases z <;> simp [flagIn, bitOf]

/-- `SetNZ8` writes the bits of N and Z (R31). -/
theorem setNZ8_eq_nz8 (p v : Byte) : setNZ8 p v = nz8 p v := by
  refine eq_of_flagIn fun f => ?_
  rw [flagIn_setNZ8, ← flagIn_maskedNZ]
  simp [nz8]

/-- `SetNZ16` writes the bits of N and Z (R31). -/
theorem setNZ16_eq_nz16 (p : Byte) (v : Word) : setNZ16 p v = nz16 p v := by
  refine eq_of_flagIn fun f => ?_
  have hn : v.getLsbD 15 = (hiByte v).getLsbD 7 := by simp [hiByte]
  rw [flagIn_setNZ16, hn, ← flagIn_maskedNZ]
  simp [nz16]

/-- Loads do not look at S. -/
@[simp] theorem readByte_withSp (s : State) (sp : Word) (a : Addr) : ({ s with sp := sp } : State).readByte a = s.readByte a :=
  rfl

/-- PLB in no open case or with the parameter as described. -/
theorem pullsDb_of {s : State} (hc : s.pullCrosses 1 = false ∨ s.emuStackCross = .described) : pullsDb s := by
  refine (unlessCrossing_of hc _).trans (congrArg _ ?_)
  ext1 <;> simp [setNZ8_eq_nz8, newUp, endN, ended]

/-- PLD in no open case or with the parameter as described. -/
theorem pullsD_of {s : State} (hc : s.pullCrosses 2 = false ∨ s.emuStackCross = .described) : pullsD s := by
  refine (unlessCrossing_of hc _).trans (congrArg _ ?_)
  ext1 <;> simp [setNZ16_eq_nz16, newUp, endN, ended, word0, BitVec.add_assoc]

/-- RTL in no open case or with the parameter as described. -/
theorem returns_of {s : State} (hc : s.pullCrosses 3 = false ∨ s.emuStackCross = .described) : returns s := by
  refine (unlessCrossing_of hc _).trans (congrArg _ ?_)
  ext1 <;> simp [newUp, endN, ended, word0, BitVec.add_assoc]

/-- Settles O50: with the parameter as described each pull has its one meaning, in page 1 or outside. -/
theorem newStylePullsLeavePageOne : Obligations.NewStylePullsLeavePageOne :=
  fun _ _ hd => ⟨fun _ => pullsDb_of (.inr hd), fun _ => pullsD_of (.inr hd), fun _ => returns_of (.inr hd)⟩

/-- Settles O49: with the parameter as described each push has its one meaning, in page 1 or outside; PEI has two open cases. -/
theorem newStylePushesLeavePageOne : Obligations.NewStylePushesLeavePageOne := by
  intro s _ hd
  refine ⟨fun w _ => ?_, fun dp _ => ?_, fun r _ => ?_, fun _ => ?_, fun target _ => calls_of (.inr hd)⟩
  · exact pushesWordNew_of rfl (.inr hd)
  · exact pushesWordNew_of (unlessCrossing_of (.inr hd) _) (.inr hd)
  · exact pushesWordNew_of rfl (.inr hd)
  · exact pushesWordNew_of rfl (.inr hd)

end Sys2Proof.Machine
end

section
/-! PROOFS. The state in which each instruction completes, and what it keeps of the registers, the flags and the modes. -/

namespace Sys2Proof.Machine

open Sys2Proof.Claim

/-! ## The state an instruction completes in -/

/-- TSB or TRB completed (R172, R173). -/
@[simp] def State.tested (s : State) (n : Nat) (o : Operand) (f : Word → Word → Word) : State :=
  ({ s.advance n with p := setTestZ s.p s.accOp (s.readOp o) } : State).storeAll (s.rmwStores o (f (s.readOp o) s.accOp))

/-- One iteration of a block move completed (R122). -/
@[simp] def State.blockStepped (s : State) (dir : Word) (dst src : Byte) : State :=
  { s.storeAll (s.moveStores dst src) with
    db := dst
    x := stepIndex (s.flag .x) dir s.x
    y := stepIndex (s.flag .x) dir s.y
    a := s.a - 1
    pc := if s.a = 0 then s.pc + 3 else s.pc }

@[simp] theorem writeStatus_eq (s : State) (p : Byte) :
    s.writeStatus p =
      { ({ s with p := p } : State).normalize with iJustChanged := flagIn p .i != s.flag .i } := rfl

/-- The state that the instruction leads to from `s` where it completes. Whether it does is decided apart from it, by the open
parameters and by R240: `exec_eq_completed`. -/
def State.completed (s : State) : Instr → State
  | .bra r => { s with pc := s.relTarget 2 r }
  | .brl r => { s with pc := s.relTarget 3 r }
  | .jml abs => { s with pc := offsetOf (s.readLong0 abs), pb := bankOf (s.readLong0 abs) }
  | .jsl long => { s.pushNew (s.pb :: pushOrder (s.pc + 3)) with pc := offsetOf long, pb := bankOf long }
  | .rtl => { ((s.pull16 newUp).2.pull8 newUp).2.endPull with
      pc := (s.pull16 newUp).1 + 1, pb := ((s.pull16 newUp).2.pull8 newUp).1 }
  | .cop _ => (s.advance 2).takeInterrupt .cop (s.pc + 2) s.copEmuBit4
  | .stp => { s.advance 1 with runState := .stopped }
  | .wai => { s.advance 1 with runState := .waiting }
  | .wdm _ => s.advance 2
  | .mvn dst src => s.blockStepped 1 dst src
  | .mvp dst src => s.blockStepped (-1) dst src
  | .rep m => (s.advance 2).writeStatus (s.p &&& ~~~m)
  | .sep m => (s.advance 2).writeStatus (s.p ||| m)
  | .xce => ({ s.advance 1 with p := setFlag s.p .c s.e, e := s.flag .c } : State).normalize
  | .xba => { s.advance 1 with a := wordOf (loByte s.a) (hiByte s.a), p := setNZ8 s.p (hiByte s.a) }
  | .tcd => { s.advance 1 with d := s.a, p := setNZ16 s.p s.a }
  | .tcs => { s.advance 1 with sp := if s.e then wordOf 0x01 (loByte s.a) else s.a }
  | .tdc => { s.advance 1 with a := s.d, p := setNZ16 s.p s.d }
  | .tsc => { s.advance 1 with a := s.sp, p := setNZ16 s.p s.sp }
  | .txy => { s.advance 1 with y := s.intoIndex s.y s.x, p := setNZIndex s.p s.x }
  | .tyx => { s.advance 1 with x := s.intoIndex s.x s.y, p := setNZIndex s.p s.y }
  | .pea w => (s.advance 3).pushNew (pushOrder w)
  | .pei dp => (s.advance 2).pushNew (pushOrder (s.readWord0 (s.dirAddrNew dp.toNat)))
  | .per r => (s.advance 3).pushNew (pushOrder (s.relTarget 3 r))
  | .phd => (s.advance 1).pushNew (pushOrder s.d)
  | .phb => (s.advance 1).pushOrd [s.db]
  | .phk => (s.advance 1).pushOrd [s.pb]
  | .phx => (s.advance 1).pushOrd (s.indexBytes s.x)
  | .phy => (s.advance 1).pushOrd (s.indexBytes s.y)
  | .plb => { ((s.advance 1).pull8 newUp).2.endPull with
      db := ((s.advance 1).pull8 newUp).1, p := setNZ8 s.p ((s.advance 1).pull8 newUp).1 }
  | .pld => { ((s.advance 1).pull16 newUp).2.endPull with
      d := ((s.advance 1).pull16 newUp).1, p := setNZ16 s.p ((s.advance 1).pull16 newUp).1 }
  | .plx => { (s.advance 1).pullIndex.2 with
      x := s.intoIndex s.x (s.advance 1).pullIndex.1, p := setNZIndex s.p (s.advance 1).pullIndex.1 }
  | .ply => { (s.advance 1).pullIndex.2 with
      y := s.intoIndex s.y (s.advance 1).pullIndex.1, p := setNZIndex s.p (s.advance 1).pullIndex.1 }
  | .stzAbs abs => (s.advance 3).storeAll (s.zeroStores (s.absolute abs))
  | .stzAbsX abs => (s.advance 3).storeAll (s.zeroStores (s.absoluteX abs))
  | .stzDp dp => (s.advance 2).storeAll (s.zeroStores (s.directPage dp))
  | .stzDpX dp => (s.advance 2).storeAll (s.zeroStores (s.directPageX dp))
  | .tsbAbs abs => s.tested 3 (s.absolute abs) setBits
  | .tsbDp dp => s.tested 2 (s.directPage dp) setBits
  | .trbAbs abs => s.tested 3 (s.absolute abs) resetBits
  | .trbDp dp => s.tested 2 (s.directPage dp) resetBits

/-- The refusals of the open cases `c` and of the stores `ws` stand before the completed state, and nothing else does. -/
theorem exec_eq_completed {i : Instr} {s : State} (hw : wdmCompletes i s) :
    ∃ c ws, exec i s = s.unlessCrossing c (s.finish i.length ws (s.completed i)) := by
  cases i with
  | wdm b => exact ⟨false, [], exec_wdm_of_nop (hw b rfl) b⟩
  | pei dp => exact ⟨_, _, unlessCrossing_unlessCrossing s _ _ _⟩
  | pea _ | per _ | phd | jsl _ => exact ⟨_, _, rfl⟩
  | rtl | plb | pld => exact ⟨_, [], rfl⟩
  | cop _ | phb | phk | phx | phy | mvn _ _ | mvp _ _ | stzAbs _ | stzAbsX _ | stzDp _ | stzDpX _ | tsbAbs _ | tsbDp _ | trbAbs _
  | trbDp _ => exact ⟨false, _, rfl⟩
  | _ => exact ⟨false, [], rfl⟩

/-- The only state an instruction can answer; what it keeps and writes is read off `State.completed`. -/
theorem eq_completed_of_exec {i : Instr} {s t : State} (h : exec i s = .next t) : t = s.completed i := by
  have hw : wdmCompletes i s := by
    by_contra hno
    rw [exec_of_not_wdmCompletes hno] at h
    cases h
  obtain ⟨c, ws, he⟩ := exec_eq_completed hw
  rw [he, unlessCrossing_eq_next, finish_eq_next] at h
  obtain ⟨-, -, ht⟩ := h
  exact ht

/-! ## Registers (R38) -/

section
variable (s : State) {i : Instr}

theorem completed_e (h : i ≠ .xce) : (s.completed i).e = s.e := by
  cases i with
  | xce => exact absurd rfl h
  | _ => simp [State.completed]

theorem completed_pb (hjml : ∀ w, i ≠ .jml w) (hjsl : ∀ w, i ≠ .jsl w) (hrtl : i ≠ .rtl) (hcop : ∀ b, i ≠ .cop b) :
    (s.completed i).pb = s.pb := by
  cases i with
  | jml w => exact absurd rfl (hjml w)
  | jsl w => exact absurd rfl (hjsl w)
  | rtl => exact absurd rfl hrtl
  | cop b => exact absurd rfl (hcop b)
  | _ => simp [State.completed]

theorem completed_db (hplb : i ≠ .plb) (hmove : ∀ d r, i ≠ .mvn d r ∧ i ≠ .mvp d r) : (s.completed i).db = s.db := by
  cases i with
  | plb => exact absurd rfl hplb
  | mvn d r => exact absurd rfl (hmove d r).1
  | mvp d r => exact absurd rfl (hmove d r).2
  | _ => simp [State.completed]

theorem completed_d (htcd : i ≠ .tcd) (hpld : i ≠ .pld) : (s.completed i).d = s.d := by
  cases i with
  | tcd => exact absurd rfl htcd
  | pld => exact absurd rfl hpld
  | _ => simp [State.completed]

theorem completed_a (htdc : i ≠ .tdc) (htsc : i ≠ .tsc) (hxba : i ≠ .xba) (hmove : ∀ d r, i ≠ .mvn d r ∧ i ≠ .mvp d r) :
    (s.completed i).a = s.a := by
  cases i with
  | tdc => exact absurd rfl htdc
  | tsc => exact absurd rfl htsc
  | xba => exact absurd rfl hxba
  | mvn d r => exact absurd rfl (hmove d r).1
  | mvp d r => exact absurd rfl (hmove d r).2
  | _ => simp [State.completed]

theorem completed_runState (hstp : i ≠ .stp) (hwai : i ≠ .wai) : (s.completed i).runState = s.runState := by
  cases i with
  | stp => exact absurd rfl hstp
  | wai => exact absurd rfl hwai
  | _ => simp [State.completed]

end

/-- Settles O57, register by register; inputs and memory map are those of `exec_next_endsIn`. -/
theorem registersWrittenOnlyAsListed : Obligations.RegistersWrittenOnlyAsListed := by
  intro i s t h
  obtain ⟨_, _, hend⟩ := exec_next_endsIn h
  obtain ⟨hnmi, habort, hschedule, -⟩ := hend.inputs
  have hmap := hend.stores.memMap
  obtain rfl := eq_completed_of_exec h
  exact ⟨completed_e s, completed_pb s, completed_db s, completed_d s, completed_a s, completed_runState s,
    hnmi, habort, hschedule, hmap⟩

/-! ## Flags (R29) -/

/-- `Normalize()` writes M and X, and them in emulation mode only (R34). -/
theorem normalize_flag_of_ne {s : State} {f : Flag} (h : s.e = true → f ≠ .m ∧ f ≠ .x) : s.normalize.flag f = s.flag f := by
  cases he : s.e
  · simp [State.flag, he]
  · simp [State.flag, he, h he]

/-- A flag outside the instruction's row keeps its value, by the row: the whole of P, the bits of COP and of XCE, N and Z, Z, or
nothing is written. -/
theorem completed_flag (s : State) {i : Instr} {f : Flag} (h : mayWriteFlag s i f = false) :
    (s.completed i).flag f = s.flag f := by
  cases i with
  | rep m | sep m => cases h
  | cop b =>
    obtain ⟨hd, hi⟩ : f ≠ .d ∧ f ≠ .i := by simpa [mayWriteFlag] using h
    simp [State.completed, State.flag, hd, hi]
  | xce =>
    obtain ⟨hc, hmx⟩ : f ≠ .c ∧ (s.flag .c = true → f ≠ .m ∧ f ≠ .x) := by simpa [mayWriteFlag] using h
    exact (normalize_flag_of_ne hmx).trans (by simp [State.flag, hc])
  | tsbAbs _ | tsbDp _ | trbAbs _ | trbDp _ =>
    have hz : f ≠ .z := by simpa [mayWriteFlag] using h
    simp [State.completed, State.flag, hz]
  | xba | plb | pld | tcd | tdc | tsc =>
    obtain ⟨hn, hz⟩ : f ≠ .n ∧ f ≠ .z := by simpa [mayWriteFlag] using h
    simp [State.completed, State.flag, hn, hz]
  | plx | ply | txy | tyx =>
    obtain ⟨hn, hz⟩ : f ≠ .n ∧ f ≠ .z := by simpa [mayWriteFlag] using h
    exact flagIn_setNZIndex_of_ne _ _ f hn hz
  | _ => simp [State.completed, State.flag]

/-- Settles O56, row by row of the flag table. -/
theorem flagsWrittenOnlyAsListed : Obligations.FlagsWrittenOnlyAsListed := by
  intro i s t f h hf
  rw [eq_completed_of_exec h]
  exact completed_flag s hf

/-! ## Modes (R33) -/

/-- `Normalize()` establishes the invariants, whatever held before (R34). -/
theorem normalize_modesOk (s : State) : s.normalize.modesOk := by
  refine ⟨fun he => ?_, fun he => ?_, fun hx => ?_⟩
  · rw [normalize_e] at he
    simp [State.flag, he]
  · rw [normalize_e] at he
    simp [he]
  · rw [State.flag] at hx
    simp only [normalize_x, normalize_y, hx, if_true, hiByte_clearHi, and_self]

theorem writeStatus_modesOk (s : State) (p : Byte) : (s.writeStatus p).modesOk :=
  normalize_modesOk { s with p := p }

/-- The invariants stay where E, M and X stay, SH stays $01 in emulation mode, and XH and YH stay while the
index registers are narrow. -/
theorem State.modesOk.of_kept {s t : State} (hs : s.modesOk) (he : t.e = s.e) (hm : t.flag .m = s.flag .m)
    (hx : t.flag .x = s.flag .x) (hsp : s.e = true → hiByte s.sp = 0x01 → hiByte t.sp = 0x01)
    (hxy : s.flag .x = true → hiByte t.x = hiByte s.x ∧ hiByte t.y = hiByte s.y) : t.modesOk := by
  obtain ⟨h1, h2, h3⟩ := hs
  unfold State.modesOk
  rw [he, hm, hx]
  refine ⟨h1, fun h => hsp h (h2 h), fun h => ?_⟩
  obtain ⟨hhx, hhy⟩ := hxy h
  rw [hhx, hhy]
  exact h3 h

/-- I2: in emulation mode every access of S keeps SH or puts $01 there (R61, R63, R142). -/
theorem completed_sh {s : State} (he : s.e = true) (hsp : hiByte s.sp = 0x01) (i : Instr) :
    hiByte (s.completed i).sp = 0x01 := by
  cases i with
  | cop _ | phb | phk | phx | phy => simp [State.completed, he, hiByte_pushedSp_ord, hsp]
  | plx | ply =>
    simp only [State.completed, pullIndex_snd, advance_e, advance_sp, he, apply_ite hiByte, hiByte_ordUp, hsp, ite_self]
  | jsl _ | rtl | pea _ | pei _ | per _ | phd | plb | pld => simp [State.completed, he, hiByte_endN]
  | tcs | rep _ | sep _ => simp [State.completed, he]
  | xce => simp [State.completed, hsp, apply_ite hiByte]
  | _ => simp [State.completed, hsp]

theorem hiByte_stepIndex (dir v : Word) : hiByte (stepIndex true dir v) = hiByte v := by simp [stepIndex]

theorem hiByte_intoIndex {s : State} (hx : s.flag .x = true) (old v : Word) : hiByte (s.intoIndex old v) = hiByte old := by
  simp [State.intoIndex, hx]

/-- I3: a narrow index register is written in its low byte, by all but the instructions that normalise (R22). -/
theorem completed_indexHi {s : State} (hx : s.flag .x = true) {i : Instr} (hrep : ∀ m, i ≠ .rep m) (hsep : ∀ m, i ≠ .sep m)
    (hxce : i ≠ .xce) : hiByte (s.completed i).x = hiByte s.x ∧ hiByte (s.completed i).y = hiByte s.y := by
  cases i with
  | rep m => exact absurd rfl (hrep m)
  | sep m => exact absurd rfl (hsep m)
  | xce => exact absurd rfl hxce
  | mvn _ _ | mvp _ _ => simp [State.completed, hx, hiByte_stepIndex]
  | plx | ply | txy | tyx => simp [State.completed, hiByte_intoIndex hx]
  | _ => simp [State.completed]

theorem completed_modesOk {s : State} (hs : s.modesOk) (i : Instr) : (s.completed i).modesOk := by
  cases i with
  | rep m | sep m => exact writeStatus_modesOk _ _
  | xce => exact normalize_modesOk _
  | _ =>
    exact hs.of_kept (completed_e s (by simp)) (completed_flag s rfl) (completed_flag s rfl)
      (fun he hsp => completed_sh he hsp _) (fun hx => completed_indexHi hx (by simp) (by simp) (by simp))

theorem hardwareInterrupt_modesOk {s : State} (hs : s.modesOk) (k : Interrupt) : (s.hardwareInterrupt k).modesOk := by
  have hflag : ∀ f, f ≠ .d → f ≠ .i → (s.hardwareInterrupt k).flag f = s.flag f := fun f hd hi => by
    simp [State.hardwareInterrupt, State.flag, hd, hi]
  refine hs.of_kept (takeInterrupt_e s k s.pc false) (hflag .m (by simp) (by simp)) (hflag .x (by simp) (by simp)) ?_ ?_
  · exact fun he hsp => by simp [State.hardwareInterrupt, he, hiByte_pushedSp_ord, hsp]
  · exact fun _ => by simp [State.hardwareInterrupt]

/-- The reset sequence leaves every value of the table of R44, from any state (R230). -/
theorem resetValues_resetEntry (s : State) : resetValues s.resetEntry := by
  have hpc : s.resetEntry.pc = s.resetEntry.readVector 0xFFFC := by
    simp only [State.readVector, busRead_congr (s := s) (t := s.resetEntry) rfl rfl rfl]
    rfl
  have hp : ∀ f, s.resetEntry.flag f = flagIn (resetP s.p) f := fun _ => rfl
  simp only [resetValues, hp, hpc]
  simp [State.resetEntry, resetP]

theorem modesOk_of_resetValues {t : State} (h : resetValues t) : t.modesOk := by
  obtain ⟨-, hm, hx, -, -, hsp, hhx, hhy, -⟩ := h
  exact ⟨fun _ => ⟨hm, hx⟩, fun _ => hsp, fun _ => ⟨hhx, hhy⟩⟩

theorem perform_modesOk {s t : State} (hs : s.modesOk) (h : s.perform = .next t) : t.modesOk := by
  have hbegun : s.begun.modesOk := hs
  have hrunning : ({ s.begun with runState := .running } : State).modesOk := hs
  rcases perform_cases h with rfl | rfl | ⟨k, rfl⟩ | ⟨i, v, -, hv, rfl⟩
  · exact hbegun
  · exact modesOk_of_resetValues (resetValues_resetEntry _)
  · exact hardwareInterrupt_modesOk hbegun k
  · split
    · exact hbegun
    · exact eq_completed_of_exec hv ▸ completed_modesOk hrunning i

/-- Settles O7: a reset that cuts the step short establishes the invariants; else the kinds of step keep them. -/
theorem stepKeepsModeInvariants : Obligations.StepKeepsModeInvariants := by
  intro s t hs h
  obtain ⟨u, hu, rfl⟩ := step_cases h
  split
  · exact modesOk_of_resetValues (resetValues_resetEntry _)
  · exact perform_modesOk hs hu

/-! ## The state after reset (R44) -/

/-- Settles O11: register by register; the vector read is `reset_pc`. -/
theorem resetStateAsSpecified : Obligations.ResetStateAsSpecified :=
  ⟨⟨rfl, rfl, rfl, rfl, rfl, rfl, rfl, rfl, rfl, rfl, rfl, rfl, rfl, reset_pc⟩, reset_pc⟩

/-- Settles O8: the values of R44 satisfy the invariants. -/
theorem resetSatisfiesModeInvariants : Obligations.ResetSatisfiesModeInvariants :=
  modesOk_of_resetValues resetStateAsSpecified.1

end Sys2Proof.Machine
end

section
/-! PROOFS. The frame and the registers that taking an exception leaves, and the NMI at a boundary. -/

namespace Sys2Proof.Machine

open Sys2Proof.Claim

/-! ## What an exception stores and leaves -/

/-- The status byte pushed in emulation mode has bit 5 set and bit 4 as given (R204, R205, R35). -/
theorem withBit_statusBits (p : Byte) (bit4 : Bool) :
    withBit (withBit p 5 true) 4 bit4 = (p &&& 0xCF) ||| 0x20 ||| (if bit4 then 0x10 else 0x00) := by
  refine eq_of_flagIn fun f => ?_
  have hset : flagIn (withBit (withBit p 5 true) 4 bit4) f = if f = .x then bit4 else if f = .m then true else flagIn p f := by
    rw [← flagIn_setFlag, ← flagIn_setFlag]
    rfl
  rw [hset, flagIn_or, flagIn_or, flagIn_and]
  cases f <;> cases bit4 <;> simp [flagIn, bitOf]

/-- Taking an exception sets I and clears D (R204). -/
theorem setFlag_interruptP (p : Byte) : setFlag (setFlag p .i true) .d false = interruptP p := by
  refine eq_of_flagIn fun f => ?_
  rw [interruptP, flagIn_or, flagIn_and, flagIn_setFlag, flagIn_setFlag]
  cases f <;> simp [flagIn, bitOf]

/-- The frame is stored byte by byte where the statements say (R204). -/
theorem ordStores_interruptFrame (s : State) (ra : Word) (bit4 : Bool) :
    s.ordStores (s.interruptFrame ra bit4) = interruptStores s ra bit4 := by
  cases he : s.e
  · simp [State.ordStores, State.interruptFrame, State.pushedStatus, interruptStores, he, pushStores, ordDown, BitVec.sub_sub]
  · simp [State.ordStores, State.interruptFrame, State.pushedStatus, interruptStores, he, pushStores, ordDown, downOrd, setLo,
      BitVec.sub_sub, withBit_statusBits]

theorem pushedSp_interruptFrame (s : State) (ra : Word) (bit4 : Bool) :
    pushedSp (ordDown s.e) s.sp (s.interruptFrame ra bit4) = interruptSp s := by
  rw [pushedSp_ord]
  cases he : s.e <;> simp [State.interruptFrame, interruptSp, he, downOrd]

theorem takeInterrupt_interruptStores {s : State} (hm : s.memOk) (k : Interrupt) (ra : Word) (bit4 : Bool) :
    s.afterStores (s.takeInterrupt k ra bit4) (interruptStores s ra bit4) := by
  rw [← ordStores_interruptFrame]
  refine takeInterrupt_afterStores hm k ra bit4 ?_
  rw [map_fst_ordStores]
  refine nodup_ordAddrs s.e s.sp ?_
  cases he : s.e <;> simp [State.interruptFrame, he]

/-- A hardware interrupt enters as R205 says, whichever it is; the latch of the event taken is cleared. -/
theorem hardwareInterrupt_enters {s : State} (hm : s.memOk) (k : Interrupt) :
    entersInterrupt s (s.hardwareInterrupt k) s.pc (vectorOf k false) (vectorOf k true)
      (if k = .nmi then false else s.nmiPending) (if k = .abort then false else s.abortPending) := by
  have hpc : (s.hardwareInterrupt k).pc =
      (s.hardwareInterrupt k).readVector (if s.e then vectorOf k true else vectorOf k false) := by
    have hvec : (if s.e then vectorOf k true else vectorOf k false) = vectorOf k s.e := by cases s.e <;> rfl
    rw [hvec]
    exact takeInterrupt_vector s k s.pc false
  refine ⟨?_, afterStores_congr (takeInterrupt_interruptStores hm k s.pc false) rfl rfl rfl rfl⟩
  rw [← hpc]
  ext1 <;> simp [State.hardwareInterrupt, pushedSp_interruptFrame, setFlag_interruptP]

/-! ## NMI -/

/-- R207 line 3: nothing but a reset or an ABORT is before an NMI, and no mask is looked at. -/
theorem boundary_of_nmi {s : State} (hreset : s.inputsNow.reset = false) (habort : s.inputsNow.abort = false)
    (hpending : s.abortPending = false) (hnmi : s.nmiNow = true) : s.boundary = .interrupt .nmi := by
  simp [State.boundary, State.abortDue, State.enter, hreset, habort, hpending, hnmi]

theorem action_of_nmi {s : State} (hrun : s.runState ≠ .stopped) (hreset : s.inputsNow.reset = false)
    (habort : s.inputsNow.abort = false) (hpending : s.abortPending = false) (hnmi : s.nmiNow = true) :
    s.action = .interrupt .nmi := by
  have hboundary := boundary_of_nmi hreset habort hpending hnmi
  rw [action_of_modelled (by simp [habort])]
  cases hr : s.runState with
  | stopped => exact absurd hr hrun
  | running => simp [State.modelledAction, hr, hboundary]
  | waiting => simp [State.modelledAction, State.abortDue, hr, hreset, habort, hpending, hnmi, hboundary]

/-- Settles O17: the boundary takes the NMI, and the sequence does not look at the latch it clears. -/
theorem nmiTakenAtBoundary : Obligations.NmiTakenAtBoundary := by
  intro s hm hrun hreset hduring habort hpending hnmi
  have hact := action_of_nmi hrun hreset habort hpending (by simpa [State.nmiNow] using hnmi)
  have henters := hardwareInterrupt_enters (s := s.begun) hm .nmi
  refine ⟨s.begun.hardwareInterrupt .nmi, by rw [step_eq_perform hduring, State.perform, hact], ?_⟩
  rw [if_pos rfl, if_neg (by simp), begun_abortPending, hpending] at henters
  exact henters

end Sys2Proof.Machine
end

section
/-! PROOFS. The form of memory, the direct-page address and the stack pointer of ordinary pushes and pulls. -/

namespace Sys2Proof.Machine

/-! ## The canonical form of memory (R50) -/

theorem perform_memOk {s t : State} (hm : s.memOk) (h : s.perform = .next t) : t.memOk := by
  obtain ⟨ws, hws⟩ := perform_storesTo h
  exact hws.memOk hm

/-- Settles O9: a step's stores keep the form, and so does the mix of two memories that a reset during the step leaves. -/
theorem stepKeepsMemoryForm : Obligations.StepKeepsMemoryForm := by
  intro s t hm h
  obtain ⟨u, hu, rfl⟩ := step_cases h
  have huOk : u.memOk := perform_memOk hm hu
  have hbegun : s.begun.memOk := hm
  split
  · exact cutReset_memOk hbegun huOk
  · exact huOk

/-- Settles O10: memory after reset lists no cell. -/
theorem resetMemoryForm : Obligations.ResetMemoryForm := rfl

/-! ## The direct-page address (R65) -/

/-- In emulation mode with a page-aligned D the sum wraps in the page. -/
theorem dirAddr_of_pageAligned {s : State} (he : s.e = true) (hd : loByte s.d = 0) (off : Nat) :
    s.dirAddr off = wordOf (hiByte s.d) (BitVec.ofNat 8 off) := by
  simp [State.dirAddr, he, hd]

/-- In native mode, or with a D that is not page-aligned, the sum wraps in bank 0. -/
theorem dirAddr_of_not_pageAligned {s : State} (h : s.e = false ∨ loByte s.d ≠ 0) (off : Nat) :
    s.dirAddr off = s.d + BitVec.ofNat 16 off := by
  refine if_neg fun hc => ?_
  obtain ⟨he, hd⟩ : s.e = true ∧ loByte s.d = 0 := by simpa using hc
  rcases h with hn | hn
  · exact absurd he (by simp [hn])
  · exact hn hd

/-- Settles O51, by the two cases of R65. -/
theorem directPageAddress : Obligations.DirectPageAddress := by
  refine fun s off => ⟨fun he hd => ?_, fun h => ?_⟩
  · rw [dirAddr_of_pageAligned he hd, hiByte_wordOf, loByte_wordOf, BitVec.toNat_ofNat]
    exact ⟨rfl, rfl⟩
  · rw [dirAddr_of_not_pageAligned h, BitVec.toNat_add, BitVec.toNat_ofNat, Nat.add_mod_mod]

/-! ## S after an ordinary push or pull (R61) -/

theorem loByte_ordDown (sp : Word) : loByte (ordDown true sp) = loByte sp - 1 := by simp [ordDown]

theorem loByte_ordUp (sp : Word) : loByte (ordUp true sp) = loByte sp + 1 := by simp [ordUp]

/-- Settles O39: all of S moves in native mode, SL alone in emulation mode. -/
theorem ordinaryStackPointerMoves : Obligations.OrdinaryStackPointerMoves :=
  ⟨fun _ => ⟨rfl, rfl⟩, fun sp => ⟨hiByte_ordDown sp, loByte_ordDown sp, hiByte_ordUp sp, loByte_ordUp sp⟩, by decide⟩

end Sys2Proof.Machine
end

section
/-! PROOFS. The decoder and the encoder. -/

namespace Sys2Proof

/-! ## Operand fields (R82): what an operand's bytes say of its value -/

theorem wordOf_eq_iff {hi lo : Byte} {w : Word} : wordOf hi lo = w ↔ loByte w = lo ∧ hiByte w = hi :=
  ⟨by rintro rfl; simp, by rintro ⟨rfl, rfl⟩; simp⟩

theorem longAddr_eq_iff {bank : Byte} {off : Word} {t : Addr} : longAddr bank off = t ↔ off = offsetOf t ∧ bank = bankOf t :=
  ⟨by rintro rfl; simp, by rintro ⟨rfl, rfl⟩; simp⟩

/-- Two's complement: a displacement is read from its field exactly where it is in the field's range and the field holds it. -/
theorem toInt_eq_iff {n : Nat} (hn : 0 < n) {v : BitVec n} {r : Int} :
    v.toInt = r ↔ (-2 ^ (n - 1) ≤ r ∧ r < 2 ^ (n - 1)) ∧ v = BitVec.ofInt n r := by
  constructor
  · rintro rfl
    exact ⟨⟨BitVec.le_toInt v, BitVec.toInt_lt⟩, BitVec.ofInt_toInt.symm⟩
  · rintro ⟨⟨hlo, hhi⟩, rfl⟩
    exact BitVec.toInt_ofInt_eq_self hn hlo hhi

theorem toInt_eq_iff_fitsRel8 {v : Byte} {r : Int} : v.toInt = r ↔ fitsRel8 r = true ∧ v = BitVec.ofInt 8 r := by
  have hrange : (-2 ^ (8 - 1) ≤ r ∧ r < 2 ^ (8 - 1)) ↔ fitsRel8 r = true := by
    simp only [fitsRel8, decide_eq_true_eq]
    omega
  rw [toInt_eq_iff (by decide), hrange]

theorem toInt_eq_iff_fitsRel16 {v : Word} {r : Int} : v.toInt = r ↔ fitsRel16 r = true ∧ v = BitVec.ofInt 16 r := by
  have hrange : (-2 ^ (16 - 1) ≤ r ∧ r < 2 ^ (16 - 1)) ↔ fitsRel16 r = true := by
    simp only [fitsRel16, decide_eq_true_eq]
    omega
  rw [toInt_eq_iff (by decide), hrange]

/-! ## The round trip -/

/-- Behind its own opcode byte, an instruction is what the decoder reads exactly where it is well-formed and its operand bytes
stand there (R80, R81, R82, R83). The cases are the operand forms of R82. -/
theorem decode_opcode_iff (i : Instr) (b1 b2 b3 : Byte) :
    decode i.opcode b1 b2 b3 = .ok i ↔ i.wellFormed = true ∧ i.operandBytes <+: [b1, b2, b3] := by
  cases i with
  | phd | tcs | pld | tsc | phk | phy | tcd | rtl | ply | tdc | phb | txy | plb | tyx | wai | phx | stp | xba | plx | xce =>
    simp [decode, Instr.opcode, Instr.wellFormed, Instr.operandBytes]
  | cop m | tsbDp m | trbDp m | wdm m | stzDp m | stzDpX m | rep m | pei m | sep m =>
    simp [decode, Instr.opcode, Instr.wellFormed, Instr.operandBytes, eq_comm (a := b1)]
  | mvp dst src | mvn dst src =>
    simp [decode, Instr.opcode, Instr.wellFormed, Instr.operandBytes, eq_comm (a := b1), eq_comm (a := b2)]
  | tsbAbs w | trbAbs w | stzAbs w | stzAbsX w | jml w | pea w =>
    simp [decode, Instr.opcode, Instr.wellFormed, Instr.operandBytes, wordOf_eq_iff]
  | jsl t =>
    simp [decode, Instr.opcode, Instr.wellFormed, Instr.operandBytes, longAddr_eq_iff, wordOf_eq_iff, and_assoc,
      eq_comm (a := b3)]
  | bra r =>
    simp [decode, Instr.opcode, Instr.wellFormed, Instr.operandBytes, toInt_eq_iff_fitsRel8, eq_comm (a := b1)]
  | per r | brl r =>
    simp [decode, Instr.opcode, Instr.wellFormed, Instr.operandBytes, toInt_eq_iff_fitsRel16, wordOf_eq_iff]

theorem encode_prefix_iff {i : Instr} {b0 b1 b2 b3 : Byte} :
    encode i <+: [b0, b1, b2, b3] ↔ i.opcode = b0 ∧ i.operandBytes <+: [b1, b2, b3] :=
  List.cons_prefix_cons

theorem opcode_of_decode {i : Instr} {b0 b1 b2 b3 : Byte} (h : decode b0 b1 b2 b3 = .ok i) : i.opcode = b0 := by
  rcases Machine.decode_cases b0 b1 b2 b3 with ⟨j, hj, hop⟩ | he
  · obtain rfl : j = i := Except.ok.inj (hj.symm.trans h)
    exact hop
  · cases he.symm.trans h

/-- The decoder and the encoder are inverse to each other on the well-formed instructions (R80, R81). -/
theorem decode_eq_ok_iff {i : Instr} {b0 b1 b2 b3 : Byte} :
    decode b0 b1 b2 b3 = .ok i ↔ i.wellFormed = true ∧ encode i <+: [b0, b1, b2, b3] := by
  rw [encode_prefix_iff]
  constructor
  · intro h
    obtain rfl := opcode_of_decode h
    obtain ⟨hwf, hops⟩ := (decode_opcode_iff i b1 b2 b3).1 h
    exact ⟨hwf, rfl, hops⟩
  · rintro ⟨hwf, rfl, hops⟩
    exact (decode_opcode_iff i b1 b2 b3).2 ⟨hwf, hops⟩

theorem length_encode (i : Instr) : (encode i).length = i.length := by
  cases i <;> rfl

/-- Settles O1: one direction of `decode_eq_ok_iff`. -/
theorem decodeOfEncode : Obligations.DecodeOfEncode :=
  fun _ _ _ _ _ hwf henc => decode_eq_ok_iff.2 ⟨hwf, henc⟩

/-- Settles O2: the other direction, and the length of each opcode (R85). -/
theorem encodeOfDecode : Obligations.EncodeOfDecode := by
  intro i b0 b1 b2 b3 h
  obtain ⟨hwf, henc⟩ := decode_eq_ok_iff.1 h
  exact ⟨hwf, henc, length_encode i⟩

/-- Settles O4: the decoder evaluated at the eight words. -/
theorem specWordsDecode : Obligations.SpecWordsDecode := by
  unfold Obligations.SpecWordsDecode
  decide

end Sys2Proof
end

section
/-! PROOFS. Control transfer: branch targets, the pointer of JML, and the call and return of JSL and RTL. -/

namespace Sys2Proof.Machine

open Sys2Proof.Claim

/-! ## Branches (R84) -/

/-- A displacement read from a byte is the byte's sign extension. -/
theorem relTarget_byte (s : State) (n : Nat) (b : Byte) :
    s.relTarget n b.toInt = s.pc + BitVec.ofNat 16 n + b.signExtend 16 := rfl

/-- A displacement read from a word is the word. -/
theorem relTarget_word (s : State) (n : Nat) (w : Word) : s.relTarget n w.toInt = s.pc + BitVec.ofNat 16 n + w := by
  rw [State.relTarget, BitVec.ofInt_toInt]

theorem exec_bra (s : State) (r : Int) : exec (.bra r) s = .next { s with pc := s.relTarget 2 r } := rfl

theorem exec_brl (s : State) (r : Int) : exec (.brl r) s = .next { s with pc := s.relTarget 3 r } := rfl

/-- Settles O25: the decoder takes the displacement signed, and adding it is adding the extended operand. -/
theorem relativeBranchesTaken : Obligations.RelativeBranchesTaken := by
  refine ⟨fun s b1 _ _ => ⟨.bra b1.toInt, rfl, ?_⟩, fun s b1 b2 _ => ⟨.brl (wordOf b2 b1).toInt, rfl, ?_⟩⟩
  · rw [exec_bra, relTarget_byte]
    rfl
  · rw [exec_brl, relTarget_word]
    rfl

/-! ## JML (R102) -/

@[simp] theorem offsetOf_readLong0 (s : State) (off : Word) : offsetOf (s.readLong0 off) = word0 s off :=
  offsetOf_longAddr _ _

@[simp] theorem bankOf_readLong0 (s : State) (off : Word) : bankOf (s.readLong0 off) = s.readByte (bank0 (off + 2)) :=
  bankOf_longAddr _ _

theorem exec_jml (s : State) (abs : Word) :
    exec (.jml abs) s = .next { s with pc := offsetOf (s.readLong0 abs), pb := bankOf (s.readLong0 abs) } := rfl

/-- Settles O26: the long address at the pointer, taken apart. -/
theorem jumpLongThroughPointer : Obligations.JumpLongThroughPointer := by
  refine ⟨fun _ _ _ => rfl, fun s abs => ?_⟩
  rw [exec_jml, offsetOf_readLong0, bankOf_readLong0]

/-! ## JSL and RTL inside page 1 (R103, R104) -/

theorem pushCrosses_eq_false {s : State} {n : Nat} : s.pushCrosses n = false ↔ noPushCrossing s n := by
  rw [Bool.eq_false_iff, ne_eq, pushCrosses_eq_true, not_and_or, Bool.not_eq_true, not_lt]

theorem pullCrosses_eq_false {s : State} {n : Nat} : s.pullCrosses n = false ↔ noPullCrossing s n := by
  rw [Bool.eq_false_iff, ne_eq, pullCrosses_eq_true, not_and_or, Bool.not_eq_true, not_lt]

/-- Settles O27: a call that crosses nothing is no open case. -/
theorem jumpSubroutineLong : Obligations.JumpSubroutineLong :=
  ⟨fun _ _ _ => rfl, fun _ _ h => calls_of (.inl (pushCrosses_eq_false.2 h))⟩

/-- Settles O28: a return that crosses nothing is no open case. -/
theorem returnFromSubroutineLong : Obligations.ReturnFromSubroutineLong :=
  ⟨fun _ _ _ => rfl, fun _ h => returns_of (.inl (pullCrosses_eq_false.2 h))⟩

/-! ## A return after its call -/

/-- `EndN()` leaves an S alone that is in page 1 where it has to be (R63). -/
theorem ended_eq_self {e : Bool} {sp : Word} (h : e = true → hiByte sp = 0x01) : ended e sp = sp := by
  cases e with
  | false => rfl
  | true => rw [ended, if_pos rfl, ← h rfl, wordOf_hiByte_loByte]

theorem toNat_sub_of_le_loByte {sp k : Word} (h : k.toNat ≤ (loByte sp).toNat) : (sp - k).toNat = sp.toNat - k.toNat := by
  rw [toNat_loByte] at h
  exact BitVec.toNat_sub_of_le (BitVec.le_def.2 (h.trans (Nat.mod_le _ _)))

/-- Going down no further than SL moves SL as far as S. -/
theorem toNat_loByte_sub_add {sp k : Word} (h : k.toNat ≤ (loByte sp).toNat) :
    (loByte (sp - k)).toNat + k.toNat = (loByte sp).toNat := by
  have hsub := toNat_sub_of_le_loByte h
  rw [toNat_loByte] at h
  rw [toNat_loByte, toNat_loByte, hsub]
  omega

/-- Going down no further than SL does not borrow from SH. -/
theorem hiByte_sub_of_le_loByte {sp k : Word} (h : k.toNat ≤ (loByte sp).toNat) : hiByte (sp - k) = hiByte sp := by
  have hsub := toNat_sub_of_le_loByte h
  rw [toNat_loByte] at h
  apply BitVec.eq_of_toNat_eq
  rw [toNat_hiByte, toNat_hiByte, hsub]
  omega

/-- RTL on the frame that a call from `s` left below the S of `s` (R103, R104): PC past the call, PB and S as in `s`. -/
theorem exec_rtl_of_callFrame {s t : State} (ht : noPullCrossing t 3) (hsp : t.sp = s.sp - 3) (he : ended t.e s.sp = s.sp)
    (hpb : t.readByte (bank0 s.sp) = s.pb) (hhi : t.readByte (bank0 (s.sp - 1)) = hiByte (s.pc + 3))
    (hlo : t.readByte (bank0 (s.sp - 2)) = loByte (s.pc + 3)) :
    exec .rtl t = .next { t with pc := s.pc + 4, pb := s.pb, sp := s.sp } := by
  have h1 : t.sp + 1 = s.sp - 2 := by bv_omega
  have h2 : s.sp - 2 + 1 = s.sp - 1 := by bv_omega
  have h3 : t.sp + 3 = s.sp := by bv_omega
  have hpc : word0 t (s.sp - 2) + 1 = s.pc + 4 := by
    rw [word0, h2, hhi, hlo, wordOf_hiByte_loByte, BitVec.add_assoc]
    rfl
  rw [returns_of (.inl (pullCrosses_eq_false.2 ht)), h1, h3, hpc, hpb, he]

/-- Settles O29: what the call stored is read back from RAM, and S, which stays in page 1 in emulation mode, comes back. -/
theorem subroutineReturnsAfterCall : Obligations.SubroutineReturnsAfterCall := by
  rintro s target hm ⟨-, hsh, -⟩ hsl hclear hram
  have hdown : ended s.e (s.sp - 3) = s.sp - 3 := ended_eq_self fun he =>
    (hiByte_sub_of_le_loByte (k := 3) (hsl.resolve_left (by simp [he]))).trans (hsh he)
  have hcall : noPushCrossing s 3 := hsl.imp_right (Nat.le_succ_of_le ·)
  obtain ⟨t, hjsl, ht, -, hread, -⟩ := calls_of (target := target) (.inl (pushCrosses_eq_false.2 hcall)) hm hclear
  have hte : t.e = s.e := by rw [ht]
  have hsp : t.sp = s.sp - 3 := by rw [ht, hdown]
  have hreturn : noPullCrossing t 3 := by
    refine hsl.imp hte.trans fun h => ?_
    rw [hsp]
    exact (toNat_loByte_sub_add (k := 3) h).trans_le (Nat.le_of_lt_succ (loByte s.sp).isLt)
  refine ⟨t, hjsl, (exec_rtl_of_callFrame hreturn hsp (hte ▸ ended_eq_self hsh) ?_ ?_ ?_).trans ?_⟩
  · exact hread (bank0 s.sp, s.pb) (by simp) (hram _ (by simp))
  · exact hread (bank0 (s.sp - 1), hiByte (s.pc + 3)) (by simp) (hram _ (by simp))
  · exact hread (bank0 (s.sp - 2), loByte (s.pc + 3)) (by simp) (hram _ (by simp))
  · rw [ht]

end Sys2Proof.Machine
end

section
/-! PROOFS. The ABORT at a boundary, and the COP in both modes. -/

namespace Sys2Proof.Machine

open Sys2Proof.Claim

/-! ## ABORT -/

/-- R207 line 2: nothing but a reset is before an ABORT that the instruction before the boundary left pending. -/
theorem action_of_pendingAbort {s : State} (hmodel : s.abortModelled = true) (hrun : s.runState = .running)
    (hreset : s.inputsNow.reset = false) (habort : s.inputsNow.abort = false) (hpending : s.abortPending = true) :
    s.action = .interrupt .abort := by
  rw [action_of_modelled fun _ => hmodel]
  simp [State.modelledAction, State.boundary, State.abortDue, State.enter, hrun, hreset, hmodel, hpending, habort]

/-- An ABORT ends a wait and is the event taken, whatever NMI and IRQ are (R112, R220). -/
theorem action_of_abortInWait {s : State} (hmodel : s.abortModelled = true) (hwait : s.runState = .waiting)
    (hreset : s.inputsNow.reset = false) (habort : s.inputsNow.abort = true) : s.action = .interrupt .abort := by
  rw [action_of_modelled fun _ => hmodel]
  simp [State.modelledAction, hwait, hreset, habort]

/-- A machine that is not stopped latches an NMI edge that arrives while another event is taken (R37, R202). -/
theorem begun_nmiPending_of_not_stopped {s : State} (hrun : s.runState ≠ .stopped) :
    s.begun.nmiPending = (s.nmiPending || s.inputsNow.nmi) := by
  rw [begun_nmiPending, if_neg hrun, State.nmiNow]

/-- A step that takes an ABORT enters its sequence with PC as the return address; an NMI stays latched. -/
theorem step_enters_of_abort {s : State} (hm : s.memOk) (hduring : s.inputsNow.resetDuring = false)
    (hrun : s.runState ≠ .stopped) (hact : s.action = .interrupt .abort) :
    ∃ t, step s = .next t ∧
      entersInterrupt (pastBoundary s) t s.pc 0xFFE8 0xFFF8 (s.nmiPending || s.inputsNow.nmi) false := by
  have henters := hardwareInterrupt_enters (s := s.begun) hm .abort
  refine ⟨s.begun.hardwareInterrupt .abort, by rw [step_eq_perform hduring, State.perform, hact], ?_⟩
  rw [if_neg (by simp), if_pos rfl, begun_nmiPending_of_not_stopped hrun] at henters
  exact henters

/-- Settles O21: both boundaries take the ABORT, and taking it is one sequence. -/
theorem abortTakenAtBoundary : Obligations.AbortTakenAtBoundary := by
  refine ⟨fun s hm hmodel hrun hreset hduring habort hpending => ?_, fun s hm hmodel hwait hreset hduring habort => ?_⟩
  · exact step_enters_of_abort hm hduring (by simp [hrun]) (action_of_pendingAbort hmodel hrun hreset habort hpending)
  · exact step_enters_of_abort hm hduring (by simp [hwait]) (action_of_abortInWait hmodel hwait hreset habort)

/-! ## COP -/

/-- What taking an exception leaves: S below the frame, I set, D and PB cleared, PC from the vector as memory then is (R204). -/
theorem takeInterrupt_eq (s : State) (k : Interrupt) (ra : Word) (bit4 : Bool) :
    s.takeInterrupt k ra bit4 =
      { s with
        sp := interruptSp s
        p := interruptP s.p
        pb := 0
        pc := (s.takeInterrupt k ra bit4).readVector (vectorOf k s.e)
        mem := (s.takeInterrupt k ra bit4).mem
        deviceOut := (s.takeInterrupt k ra bit4).deviceOut } := by
  rw [← takeInterrupt_vector]
  ext1 <;> simp [pushedSp_interruptFrame, setFlag_interruptP]

/-- COP in either mode, where its frame falls outside its own bytes (R110, R204): the vector and the frame are by the mode. -/
theorem exec_cop_traps {s : State} (sig : Byte) (hm : s.memOk)
    (hclear : s.clearOfOwn 2 ((interruptStores s (s.pc + 2) s.copEmuBit4).map Prod.fst)) :
    ∃ t, exec (.cop sig) s = .next t ∧
      t = { s with
        sp := interruptSp s
        p := interruptP s.p
        pb := 0
        pc := t.readVector (vectorOf .cop s.e)
        mem := t.mem
        deviceOut := t.deviceOut } ∧
      s.afterStores t (interruptStores s (s.pc + 2) s.copEmuBit4) := by
  rw [← ordStores_interruptFrame] at hclear
  exact ⟨(s.advance 2).takeInterrupt .cop (s.pc + 2) s.copEmuBit4, finish_of_clear hclear _,
    takeInterrupt_eq (s.advance 2) _ _ _, takeInterrupt_interruptStores (s := s.advance 2) hm _ _ _⟩

/-- Settles O22: the vector, S and the frame of `exec_cop_traps` are those of native mode. -/
theorem copTrapsInNativeMode : Obligations.CopTrapsInNativeMode := by
  refine ⟨fun _ _ _ => rfl, fun s sig he hm hclear => ?_⟩
  have htraps := exec_cop_traps sig hm (by simpa [interruptStores, he] using hclear)
  simpa only [interruptSp, interruptStores, vectorOf, he, Bool.false_eq_true, if_false] using htraps

/-- Settles O23: the vector, S and the frame of `exec_cop_traps` are those of emulation mode. -/
theorem copTrapsInEmulationMode : Obligations.CopTrapsInEmulationMode := by
  intro s sig he hm hclear
  have htraps := exec_cop_traps sig hm (by simpa [interruptStores, he] using hclear)
  simpa only [interruptSp, interruptStores, vectorOf, he, if_true] using htraps

end Sys2Proof.Machine
end

section
/-! PROOFS. Reads and stores of a machine that is all RAM, what a fetch looks at, and the last step of a run. -/

namespace Sys2Proof.Machine

open Sys2Proof.Claim

/-! ## A machine that is all RAM -/

theorem kindAt_of_noMap {s : State} (hmap : s.memMap = []) (a : Addr) : s.kindAt a = .ram := by
  simp [State.kindAt, hmap]

theorem busRead_of_noMap {s : State} (hmap : s.memMap = []) (k : AccessKind) (a : Addr) :
    s.busRead k a = Memory.read s.mem a.toNat := by
  simp [State.busRead, kindAt_of_noMap hmap]

theorem readByte_of_noMap {s : State} (hmap : s.memMap = []) (a : Addr) : s.readByte a = Memory.read s.mem a.toNat :=
  busRead_of_noMap hmap .data a

theorem writeByte_of_noMap {s : State} (hmap : s.memMap = []) (a : Addr) (v : Byte) :
    s.writeByte a v = { s with mem := Memory.write s.mem a.toNat v } := by
  simp [State.writeByte, kindAt_of_noMap hmap]

/-! ## Fetching -/

theorem length_le_four (i : Instr) : i.length ≤ 4 := by
  cases i <;> simp [Instr.length]

/-- What is fetched is a matter of the instruction's own bytes alone (R27, R81). -/
theorem fetch_eq_ok_iff {s : State} {i : Instr} :
    s.fetch = .ok i ↔ i.wellFormed = true ∧ encode i = (List.range i.length).map s.codeByte := by
  have htake : ((List.range 4).map s.codeByte).take i.length = (List.range i.length).map s.codeByte := by
    rw [← List.map_take, List.take_range, Nat.min_eq_left (length_le_four i)]
  rw [State.fetch, decode_eq_ok_iff, List.prefix_iff_eq_take, length_encode, ← htake]
  rfl

/-- A state with the same bytes in the place of the instruction fetches it too. -/
theorem fetch_of_codeByte_eq {s t : State} {i : Instr} (h : s.fetch = .ok i)
    (hbytes : ∀ n < i.length, t.codeByte n = s.codeByte n) : t.fetch = .ok i := by
  obtain ⟨hwf, henc⟩ := fetch_eq_ok_iff.1 h
  refine fetch_eq_ok_iff.2 ⟨hwf, henc.trans (List.map_congr_left fun n hn => ?_)⟩
  exact (hbytes n (List.mem_range.1 hn)).symm

/-! ## Runs -/

/-- The empty schedule and the empty latches let the program go on at every boundary (R207). -/
theorem programGoesOn_of_undisturbed {s : State} (hsched : s.schedule = []) (hnmi : s.nmiPending = false)
    (habort : s.abortPending = false) : programGoesOn s := by
  simp [programGoesOn, State.inputsNow, hsched, hnmi, habort, Inputs.quiet]

/-- `Host.Core.run` recurses on its first step; this is its last one. -/
theorem run_succ_of_run {M : Host.Core} {k : Nat} {s t : M.State} (h : M.run k s = .next t) : M.run (k + 1) s = M.step t := by
  induction k generalizing s with
  | zero =>
    obtain rfl := Host.Outcome.next.inj h
    rw [Host.Core.run]
    cases M.step s <;> rfl
  | succ k ih =>
    rw [Host.Core.run] at h ⊢
    split at h
    · exact ih h
    · cases h
    · cases h

end Sys2Proof.Machine
end

section
/-! PROOFS. The block moves: one iteration in the words of the statements, and the iterations of a whole move one by one. -/

namespace Sys2Proof.Machine

open Sys2Proof.Claim

/-! ## One iteration -/

@[simp] theorem movedIndex_zero (x8 up : Bool) (v : Word) : movedIndex x8 up v 0 = v := by
  cases x8 <;> cases up <;> simp [movedIndex]

/-- An index register moves step by step, in its low byte alone where it is narrow (R122, R125). -/
theorem movedIndex_succ (x8 up : Bool) (v : Word) (k : Nat) :
    movedIndex x8 up (movedIndex x8 up v k) 1 = movedIndex x8 up v (k + 1) := by
  cases x8 <;> cases up <;> simp [movedIndex, BitVec.ofNat_add, BitVec.add_assoc, BitVec.sub_sub]

/-- The step of an index register by direction: MVN adds 1, MVP adds -1 (R123, R124). -/
theorem stepIndex_eq_movedIndex (x8 up : Bool) (v : Word) :
    stepIndex x8 (if up then 1 else -1) v = movedIndex x8 up v 1 := by
  cases up with
  | true => cases x8 <;> rfl
  | false =>
    cases x8 with
    | true => exact congrArg (wordOf (hiByte v)) (BitVec.sub_eq_add_neg (loByte v) 1).symm
    | false => exact (BitVec.sub_eq_add_neg v 1).symm

/-- The two block moves differ in the direction of their iteration alone (R122). -/
theorem exec_blockMove (up : Bool) (dst src : Byte) (s : State) :
    exec (blockMove up dst src) s = s.blockStep (if up then 1 else -1) dst src := by
  cases up <;> rfl

/-- An iteration whose store falls outside the instruction's own bytes, in the words of the statements. -/
theorem exec_blockMove_of_clear {s : State} {dst : Byte} (hclear : s.clearOfOwn 3 [longAddr dst s.y]) (up : Bool) (src : Byte) :
    exec (blockMove up dst src) s = .next { s.writeByte (longAddr dst s.y) (s.readByte (longAddr src s.x)) with
      db := dst
      x := movedIndex (s.flag .x) up s.x 1
      y := movedIndex (s.flag .x) up s.y 1
      a := s.a - 1
      pc := if s.a = 0 then s.pc + 3 else s.pc } := by
  rw [exec_blockMove, State.blockStep, finish_of_clear (by simpa [State.moveStores] using hclear),
    stepIndex_eq_movedIndex, stepIndex_eq_movedIndex]
  rfl

/-- Settles O30: the one store of `exec_blockMove_of_clear` is the byte that moves; its registers are those stated. -/
theorem blockMoveIteration : Obligations.BlockMoveIteration := by
  refine ⟨fun _ _ _ => rfl, fun _ _ _ => rfl, fun s up dst src hm hclear => ?_⟩
  have hstore : s.afterStores (s.writeByte (longAddr dst s.y) (s.readByte (longAddr src s.x)))
      [(longAddr dst s.y, s.readByte (longAddr src s.x))] :=
    afterStores_storeAll hm (by simp)
  refine ⟨_, exec_blockMove_of_clear hclear up src, ?_, afterStores_congr hstore rfl rfl rfl rfl⟩
  ext1 <;> simp

/-! ## The memory of a whole move, in a machine that is all RAM -/

theorem moved_of_noMap {s : State} (hmap : s.memMap = []) (up : Bool) (dst src : Byte) (k : Nat) :
    moved s up dst src k = { s with mem := (moved s up dst src k).mem } := by
  induction k with
  | zero => rfl
  | succ k ih =>
    have hmap' : (moved s up dst src k).memMap = [] := by rw [ih, hmap]
    rw [moved, writeByte_of_noMap hmap', ih]

/-- Byte `k` of the move, as it is stored. -/
theorem mem_moved_succ {s : State} (hmap : s.memMap = []) (up : Bool) (dst src : Byte) (k : Nat) :
    (moved s up dst src (k + 1)).mem =
      Memory.write (moved s up dst src k).mem (longAddr dst (movedIndex (s.flag .x) up s.y k)).toNat
        (Memory.read (moved s up dst src k).mem (longAddr src (movedIndex (s.flag .x) up s.x k)).toNat) := by
  have hmap' : (moved s up dst src k).memMap = [] := by rw [moved_of_noMap hmap, hmap]
  rw [moved, writeByte_of_noMap hmap', readByte_of_noMap hmap']

/-- The bytes moved so far leave every address but their destinations alone. -/
theorem read_moved_of_not_dst {s : State} (hmap : s.memMap = []) {up : Bool} {dst src : Byte} {k : Nat} {b : Addr}
    (hb : ∀ j < k, longAddr dst (movedIndex (s.flag .x) up s.y j) ≠ b) :
    Memory.read (moved s up dst src k).mem b.toNat = Memory.read s.mem b.toNat := by
  induction k with
  | zero => rfl
  | succ k ih =>
    have hne : b.toNat ≠ (longAddr dst (movedIndex (s.flag .x) up s.y k)).toNat :=
      fun h => hb k (Nat.lt_succ_self k) (BitVec.eq_of_toNat_eq h.symm)
    rw [mem_moved_succ hmap, Memory.read_write_ne _ _ _ _ hne]
    exact ih fun j hj => hb j (Nat.lt_succ_of_lt hj)

/-! ## The iterations of a whole move (R125) -/

/-- `s` after the first `k` iterations of its block move, at most A + 1. The first writes DB, and every step forgets that `P.I` has
changed; the last takes PC past the instruction. -/
def State.movedTo (s : State) (up : Bool) (dst src : Byte) (k : Nat) : State :=
  { s with
    mem := (moved s up dst src k).mem
    a := s.a - BitVec.ofNat 16 k
    x := movedIndex (s.flag .x) up s.x k
    y := movedIndex (s.flag .x) up s.y k
    db := if k = 0 then s.db else dst
    pc := if s.a.toNat < k then s.pc + 3 else s.pc
    iJustChanged := decide (k = 0) && s.iJustChanged
    tick := s.tick + k }

theorem movedTo_zero (s : State) (up : Bool) (dst src : Byte) : s.movedTo up dst src 0 = s := by
  ext1 <;> simp [State.movedTo, moved]

/-- The last iteration leaves what the statement of a whole move says. -/
theorem movedTo_last {s : State} (hmap : s.memMap = []) (up : Bool) (dst src : Byte) :
    s.movedTo up dst src (s.a.toNat + 1) = { moved s up dst src (s.a.toNat + 1) with
      a := 0xFFFF
      x := movedIndex (s.flag .x) up s.x (s.a.toNat + 1)
      y := movedIndex (s.flag .x) up s.y (s.a.toNat + 1)
      db := dst
      pc := s.pc + 3
      iJustChanged := false
      tick := s.tick + (s.a.toNat + 1) } := by
  have hcount : s.a - BitVec.ofNat 16 (s.a.toNat + 1) = 0xFFFF := by bv_omega
  rw [moved_of_noMap hmap, State.movedTo, hcount]
  simp

section
variable {s : State} {up : Bool} {dst src : Byte} {k : Nat}

/-- While bytes are left, the instruction stays in its place. -/
theorem codeAddr_movedTo (hk : k ≤ s.a.toNat) (n : Nat) : (pastBoundary (s.movedTo up dst src k)).codeAddr n = s.codeAddr n := by
  simp [State.codeAddr, pastBoundary, State.movedTo, Nat.not_lt.2 hk]

theorem ownBytes_movedTo (hk : k ≤ s.a.toNat) (n : Nat) : (pastBoundary (s.movedTo up dst src k)).ownBytes n = s.ownBytes n :=
  List.map_congr_left fun j _ => codeAddr_movedTo hk j

/-- It is fetched again as long as no store has hit it. -/
theorem fetch_movedTo (hmap : s.memMap = []) (hfetch : s.fetch = .ok (blockMove up dst src)) (hk : k ≤ s.a.toNat)
    (hclear : ∀ j < k, longAddr dst (movedIndex (s.flag .x) up s.y j) ∉ s.ownBytes 3) :
    (pastBoundary (s.movedTo up dst src k)).fetch = .ok (blockMove up dst src) := by
  have hmap' : (pastBoundary (s.movedTo up dst src k)).memMap = [] := hmap
  have hlen : (blockMove up dst src).length = 3 := by cases up <;> rfl
  refine fetch_of_codeByte_eq hfetch fun n hn => ?_
  have hown : s.codeAddr n ∈ s.ownBytes 3 := List.mem_map_of_mem (List.mem_range.2 (hlen ▸ hn))
  rw [State.codeByte, State.codeByte, busRead_of_noMap hmap', busRead_of_noMap hmap, codeAddr_movedTo hk]
  exact read_moved_of_not_dst hmap fun j hj h => hclear j hj (h ▸ hown)

/-- Executed after `k` iterations, it makes the next one. -/
theorem exec_movedTo (hsched : s.schedule = []) (hmap : s.memMap = []) (hk : k ≤ s.a.toNat)
    (hclear : longAddr dst (movedIndex (s.flag .x) up s.y k) ∉ s.ownBytes 3) :
    exec (blockMove up dst src) (pastBoundary (s.movedTo up dst src k)) = .next (s.movedTo up dst src (k + 1)) := by
  have hmap' : (pastBoundary (s.movedTo up dst src k)).memMap = [] := hmap
  have hstore : (pastBoundary (s.movedTo up dst src k)).clearOfOwn 3 [longAddr dst (movedIndex (s.flag .x) up s.y k)] := by
    rw [State.clearOfOwn, ownBytes_movedTo hk]
    exact List.forall_mem_singleton.2 hclear
  have hlast : s.a - BitVec.ofNat 16 k = 0#16 ↔ s.a.toNat ≤ k := by bv_omega
  have hcount : s.a - BitVec.ofNat 16 k - 1#16 = s.a - BitVec.ofNat 16 (k + 1) := by bv_omega
  rw [exec_blockMove_of_clear hstore, writeByte_of_noMap hmap', readByte_of_noMap hmap']
  refine congrArg _ ?_
  ext1 <;> simp [pastBoundary, State.movedTo, mem_moved_succ hmap, hsched, movedIndex_succ, State.flag, hlast, hcount,
    Nat.not_lt.2 hk, Nat.add_assoc]

variable (hr : s.runState = .running) (hsched : s.schedule = []) (hnmi : s.nmiPending = false)
  (habort : s.abortPending = false) (hmap : s.memMap = []) (hfetch : s.fetch = .ok (blockMove up dst src))
  (hclear : ∀ j ≤ s.a.toNat, longAddr dst (movedIndex (s.flag .x) up s.y j) ∉ s.ownBytes 3)
include hr hsched hnmi habort hmap hfetch hclear

/-- Each of the A + 1 steps is one iteration. -/
theorem step_movedTo (hk : k ≤ s.a.toNat) : step (s.movedTo up dst src k) = .next (s.movedTo up dst src (k + 1)) := by
  have hgo : programGoesOn (s.movedTo up dst src k) := programGoesOn_of_undisturbed hsched hnmi habort
  have hstill := fetch_movedTo hmap hfetch hk fun j hj => hclear j (hj.le.trans hk)
  rw [stepRunsDecodedInstruction (s.movedTo up dst src k) _ hr hgo hstill, exec_movedTo hsched hmap hk (hclear k hk)]

theorem run_movedTo (hk : k ≤ s.a.toNat + 1) : Host.Core.run Sys2Proof.core k s = .next (s.movedTo up dst src k) := by
  induction k with
  | zero => exact congrArg _ (movedTo_zero s up dst src).symm
  | succ k ih =>
    have hrun := ih (Nat.le_of_succ_le hk)
    exact (run_succ_of_run hrun).trans (step_movedTo hr hsched hnmi habort hmap hfetch hclear (Nat.le_of_succ_le_succ hk))

end

/-- Settles O31: the A + 1 steps are the A + 1 iterations of `run_movedTo`. -/
theorem wholeBlockMove : Obligations.WholeBlockMove := by
  intro s up dst src hr hsched hnmi habort hmap hfetch hclear
  rw [run_movedTo hr hsched hnmi habort hmap hfetch hclear le_rfl, movedTo_last hmap]

end Sys2Proof.Machine
end

section
/-! PROOFS. `Normalize()` in the words of the statements, and with it REP, SEP and XCE. -/

namespace Sys2Proof.Machine

open Sys2Proof.Claim

/-! ## Forced flags and registers (R34) -/

/-- M and X are bits 5 and 4 (R28). -/
theorem setFlag_m_x_true (p : Byte) : setFlag (setFlag p .m true) .x true = p ||| 0x30 := BitVec.or_assoc p 0x20 0x10

/-- C is bit 0 (R28). -/
theorem setFlag_c (p : Byte) (v : Bool) : setFlag p .c v = (p &&& 0xFE) ||| (if v then 0x01 else 0x00) := by
  refine eq_of_flagIn fun f => ?_
  rw [flagIn_setFlag, flagIn_or, flagIn_and]
  cases f <;> cases v <;> simp [flagIn, bitOf]

/-- The frame of `Normalize()`: beside P, S, X and Y it writes nothing. -/
theorem normalize_eq (s : State) : s.normalize = { s with
    p := if s.e then s.p ||| 0x30 else s.p
    sp := ended s.e s.sp
    x := if s.normalize.flag .x then wordOf 0 (loByte s.x) else s.x
    y := if s.normalize.flag .x then wordOf 0 (loByte s.y) else s.y } := by
  rw [← setFlag_m_x_true]
  rfl

/-! ## REP and SEP (R130, R131) -/

/-- `Normalize()` does not write I, so the note of a changed I speaks of the status byte that it leaves too (R34, R207). -/
theorem writeStatus_iJustChanged (s : State) (p : Byte) :
    (s.writeStatus p).iJustChanged = ((s.writeStatus p).flag .i != s.flag .i) := by
  have hi : (s.writeStatus p).flag .i = flagIn p .i := normalize_flag_of_ne (s := { s with p := p }) fun _ => by simp
  rw [hi]
  rfl

/-- An instruction of `n` bytes that replaces the status byte by `p`. -/
theorem writeStatus_advance_eq (s : State) (n : Nat) (p : Byte) : (s.advance n).writeStatus p = { s with
    pc := s.pc + BitVec.ofNat 16 n
    p := if s.e then p ||| 0x30 else p
    sp := ended s.e s.sp
    x := if ((s.advance n).writeStatus p).flag .x then wordOf 0 (loByte s.x) else s.x
    y := if ((s.advance n).writeStatus p).flag .x then wordOf 0 (loByte s.y) else s.y
    iJustChanged := ((s.advance n).writeStatus p).flag .i != s.flag .i } := by
  have hnote := writeStatus_iJustChanged (s.advance n) p
  have hrest := normalize_eq { s.advance n with p := p }
  calc (s.advance n).writeStatus p
      = { ({ s.advance n with p := p } : State).normalize with
            iJustChanged := ((s.advance n).writeStatus p).iJustChanged } := rfl
    _ = _ := by rw [hnote, hrest]; rfl

/-- Settles O32: REP writes the status byte with the mask's bits cleared. -/
theorem repClearsMaskedFlags : Obligations.RepClearsMaskedFlags :=
  ⟨fun _ _ _ => rfl, fun s m => ⟨_, rfl, writeStatus_advance_eq s 2 (s.p &&& ~~~m)⟩⟩

/-- Settles O33: SEP writes the status byte with the mask's bits set. -/
theorem sepSetsMaskedFlags : Obligations.SepSetsMaskedFlags :=
  ⟨fun _ _ _ => rfl, fun s m => ⟨_, rfl, writeStatus_advance_eq s 2 (s.p ||| m)⟩⟩

/-! ## XCE (R132) -/

/-- C takes the old E, and the new E, which is the old C, forces M and X (R132, R34). -/
theorem exchangedStatus_eq (s : State) :
    (if s.flag .c then setFlag s.p .c s.e ||| 0x30 else setFlag s.p .c s.e) =
      (s.p &&& 0xFE) ||| (if s.e then 0x01 else 0x00) ||| (if s.flag .c then 0x30 else 0x00) := by
  rw [setFlag_c]
  cases s.flag .c
  · exact BitVec.or_zero.symm
  · rfl

/-- Settles O34: `Normalize()` of the state with C and E exchanged. -/
theorem xceExchangesCarryAndEmulation : Obligations.XceExchangesCarryAndEmulation := by
  refine ⟨fun _ _ _ => rfl, fun s => ⟨_, rfl, ?_⟩⟩
  rw [← exchangedStatus_eq]
  exact normalize_eq { s.advance 1 with p := setFlag s.p .c s.e, e := s.flag .c }

end Sys2Proof.Machine
end

section
/-! PROOFS. The transfers between registers. -/

namespace Sys2Proof.Machine

open Sys2Proof.Claim

/-! ## Transfers into the index registers (R145, R146) -/

theorem setNZIndex_of_x {p : Byte} (h : flagIn p .x = true) (v : Word) : setNZIndex p v = nz8 p (loByte v) := by
  rw [setNZIndex, if_pos h, setNZ8_eq_nz8]

theorem setNZIndex_of_not_x {p : Byte} (h : flagIn p .x = false) (v : Word) : setNZIndex p v = nz16 p v := by
  rw [setNZIndex, if_neg (ne_true_of_eq_false h), setNZ16_eq_nz16]

theorem intoIndex_of_x {s : State} (h : s.flag .x = true) (old v : Word) :
    s.intoIndex old v = wordOf (hiByte old) (loByte v) := if_pos h

theorem intoIndex_of_not_x {s : State} (h : s.flag .x = false) (old v : Word) : s.intoIndex old v = v :=
  if_neg (ne_true_of_eq_false h)

theorem exec_txy (s : State) :
    exec .txy s = .next { s with pc := s.pc + 1, y := s.intoIndex s.y s.x, p := setNZIndex s.p s.x } := rfl

theorem exec_tyx (s : State) :
    exec .tyx s = .next { s with pc := s.pc + 1, x := s.intoIndex s.x s.y, p := setNZIndex s.p s.y } := rfl

/-- Settles O38: `P.X` picks the byte or the word, for the register and for N and Z alike. -/
theorem indexTransfers : Obligations.IndexTransfers := by
  refine ⟨fun _ _ _ => rfl, fun _ _ _ => rfl, fun s hx => ?_, fun s hx => ?_⟩
  · simp only [exec_txy, exec_tyx, intoIndex_of_x hx, setNZIndex_of_x hx, and_self]
  · simp only [exec_txy, exec_tyx, intoIndex_of_not_x hx, setNZIndex_of_not_x hx, and_self]

/-! ## Transfers of the accumulator (R140 to R144) -/

/-- Settles O35: `SetNZ8` of the old AH, which is the new AL. -/
theorem xbaSwapsAccumulatorBytes : Obligations.XbaSwapsAccumulatorBytes := by
  refine ⟨fun _ _ _ => rfl, fun s => ?_⟩
  rw [← setNZ8_eq_nz8]
  rfl

/-- Settles O36: `SetNZ16` of the word that is moved. -/
theorem accumulatorTransfers : Obligations.AccumulatorTransfers := by
  refine ⟨fun _ _ _ => rfl, fun _ _ _ => rfl, fun _ _ _ => rfl, fun s => ?_⟩
  simp only [← setNZ16_eq_nz16]
  exact ⟨rfl, rfl, rfl⟩

/-- Settles O37: `P` is not among the fields that TCS writes. -/
theorem tcsLoadsStackPointer : Obligations.TcsLoadsStackPointer :=
  ⟨fun _ _ _ => rfl, fun _ => rfl⟩

end Sys2Proof.Machine
end

section
/-! PROOFS. The stack instructions: the pushes and pulls of R63 inside page 1, and the ordinary ones at their widths. -/

namespace Sys2Proof.Machine

open Sys2Proof.Claim

/-! ## PEA, PEI, PER and PHD inside page 1 (R151, R152, R153, R155) -/

/-- An instruction that pushes a word by the rule of R63 and crosses nothing is no open case. -/
theorem pushesWordNew_of_noPushCrossing {i : Instr} {n : Nat} {w : Word} {s : State}
    (he : exec i s = s.pushNewOp n (pushOrder w)) (h : noPushCrossing s 2) : pushesWordNew i n w s :=
  pushesWordNew_of he (.inl (pushCrosses_eq_false.2 h))

theorem dirAddrOpen_eq_false {s : State} {dp : Byte} :
    s.dirAddrOpen dp = false ↔ s.e = false ∨ loByte s.d ≠ 0 ∨ dp ≠ 0xFF := by
  rw [Bool.eq_false_iff, ne_eq, dirAddrOpen_eq_true, not_and_or, not_and_or, Bool.not_eq_true]

theorem exec_pei (s : State) (dp : Byte) :
    exec (.pei dp) s = s.unlessCrossing (s.dirAddrOpen dp)
      (s.pushNewOp 2 (pushOrder (word0 s (s.d + BitVec.ofNat 16 dp.toNat)))) := rfl

theorem exec_per (s : State) (r : Int) : exec (.per r) s = s.pushNewOp 3 (pushOrder (s.relTarget 3 r)) := rfl

/-- Settles O40: the word pushed is the operand. -/
theorem peaPushesOperand : Obligations.PeaPushesOperand :=
  ⟨fun _ _ _ => rfl, fun _ _ h => pushesWordNew_of_noPushCrossing rfl h⟩

/-- Settles O41: neither the pointer read nor the push is an open case. -/
theorem peiPushesDirectPageWord : Obligations.PeiPushesDirectPageWord := by
  refine ⟨fun _ _ _ => rfl, fun s dp h hread => pushesWordNew_of_noPushCrossing ?_ h⟩
  rw [exec_pei, unlessCrossing_of (.inl (dirAddrOpen_eq_false.2 hread))]

/-- Settles O42: the decoder takes the displacement signed, and adding it is adding the operand word. -/
theorem perPushesRelativeAddress : Obligations.PerPushesRelativeAddress := by
  refine fun s b1 b2 b3 h => ⟨.per (wordOf b2 b1).toInt, rfl, pushesWordNew_of_noPushCrossing ?_ h⟩
  rw [exec_per, relTarget_word]
  rfl

/-- Settles O43: the word pushed is D. -/
theorem phdPushesDirectRegister : Obligations.PhdPushesDirectRegister :=
  ⟨fun _ _ _ => rfl, fun _ h => pushesWordNew_of_noPushCrossing rfl h⟩

/-! ## PLB and PLD inside page 1 (R159, R160) -/

/-- Settles O46: a pull that crosses nothing is no open case. -/
theorem plbPullsDataBank : Obligations.PlbPullsDataBank :=
  ⟨fun _ _ _ => rfl, fun _ h => pullsDb_of (.inl (pullCrosses_eq_false.2 h))⟩

/-- Settles O47: a pull that crosses nothing is no open case. -/
theorem pldPullsDirectRegister : Obligations.PldPullsDirectRegister :=
  ⟨fun _ _ _ => rfl, fun _ h => pullsD_of (.inl (pullCrosses_eq_false.2 h))⟩

/-! ## Ordinary pushes (R61, R62) -/

/-- What an ordinary push leaves: PC and S moved, memory and the platform changed by the stores. -/
theorem pushOrd_advance_eq (s : State) (n : Nat) (bs : List Byte) :
    (s.advance n).pushOrd bs =
      { s with
        pc := s.pc + BitVec.ofNat 16 n
        sp := downOrd s.e s.sp bs.length
        mem := ((s.advance n).pushOrd bs).mem
        deviceOut := ((s.advance n).pushOrd bs).deviceOut } := by
  ext1 <;> simp [pushedSp_ord]

/-- An instruction that pushes up to 256 bytes with the ordinary pushes, where none falls on its own bytes. -/
theorem exec_pushOrdOp_of_clear {i : Instr} {n : Nat} {bs : List Byte} {s : State} (he : exec i s = s.pushOrdOp n bs)
    (hn : bs.length ≤ 256) (hm : s.memOk) (hclear : s.clearOfOwn n ((s.ordStores bs).map Prod.fst)) :
    ∃ t, exec i s = .next t ∧
      t = { s with
        pc := s.pc + BitVec.ofNat 16 n
        sp := downOrd s.e s.sp bs.length
        mem := t.mem
        deviceOut := t.deviceOut } ∧
      s.afterStores t (s.ordStores bs) := by
  have hstores : StoresTo s ((s.advance n).pushOrd bs) (s.ordStores bs) :=
    (StoresTo.advance s n).trans_nil (StoresTo.pushOrd _ bs)
  have hnodup : ((s.ordStores bs).map Prod.fst).Nodup := by
    rw [map_fst_ordStores]
    exact nodup_ordAddrs s.e s.sp hn
  exact ⟨_, he.trans (finish_of_clear hclear _), pushOrd_advance_eq s n bs, hstores.afterStores hm hnodup (by simp)⟩

/-! ## PHB, PHK, PHX and PHY (R154, R156, R157, R158) -/

theorem exec_phb (s : State) : exec .phb s = s.pushOrdOp 1 [s.db] := rfl

theorem exec_phk (s : State) : exec .phk s = s.pushOrdOp 1 [s.pb] := rfl

theorem exec_phx (s : State) : exec .phx s = s.pushOrdOp 1 (s.indexBytes s.x) := rfl

theorem exec_phy (s : State) : exec .phy s = s.pushOrdOp 1 (s.indexBytes s.y) := rfl

theorem indexBytes_of_x {s : State} (h : s.flag .x = true) (v : Word) : s.indexBytes v = [loByte v] := if_pos h

theorem indexBytes_of_not_x {s : State} (h : s.flag .x = false) (v : Word) : s.indexBytes v = pushOrder v :=
  if_neg (ne_true_of_eq_false h)

/-- Settles O44: both instructions are the ordinary push of one byte. -/
theorem phbPhkPushBankRegister : Obligations.PhbPhkPushBankRegister := by
  refine ⟨fun _ _ _ => rfl, fun _ _ _ => rfl, fun s i v hi hm hclear => ?_⟩
  have he : exec i s = s.pushOrdOp 1 [v] := by
    rcases hi with ⟨rfl, rfl⟩ | ⟨rfl, rfl⟩
    · exact exec_phb s
    · exact exec_phk s
  exact exec_pushOrdOp_of_clear (n := 1) (bs := [v]) he (by simp) hm hclear

/-- Settles O45: `P.X` picks the bytes of the ordinary push. -/
theorem phxPhyPushIndexRegister : Obligations.PhxPhyPushIndexRegister := by
  refine ⟨fun _ _ _ => rfl, fun _ _ _ => rfl, fun s i v hi hm => ?_⟩
  have he : exec i s = s.pushOrdOp 1 (s.indexBytes v) := by
    rcases hi with ⟨rfl, rfl⟩ | ⟨rfl, rfl⟩
    · exact exec_phx s
    · exact exec_phy s
  refine ⟨fun hx hclear => ?_, fun hx hclear => ?_⟩
  · rw [indexBytes_of_x hx] at he
    exact exec_pushOrdOp_of_clear (n := 1) (bs := [loByte v]) he (by simp) hm hclear
  · rw [indexBytes_of_not_x hx] at he
    exact exec_pushOrdOp_of_clear (n := 1) (bs := pushOrder v) he (by simp [pushOrder]) hm hclear

/-! ## PLX and PLY (R161, R162) -/

/-- Two ordinary byte pulls move S by two, in emulation mode SL alone (R61). -/
theorem ordUp_upOrd_one (e : Bool) (sp : Word) : ordUp e (upOrd e sp 1) = upOrd e sp 2 := by
  cases e <;> simp [ordUp, upOrd, setLo, BitVec.add_assoc]

theorem pullIndex_of_x {s : State} (h : s.flag .x = true) :
    s.pullIndex = (wordOf 0 (s.readByte (bank0 (upOrd s.e s.sp 1))), { s with sp := upOrd s.e s.sp 1 }) := if_pos h

theorem pullIndex_of_not_x {s : State} (h : s.flag .x = false) :
    s.pullIndex = (wordOf (s.readByte (bank0 (upOrd s.e s.sp 2))) (s.readByte (bank0 (upOrd s.e s.sp 1))),
      { s with sp := upOrd s.e s.sp 2 }) := by
  rw [← ordUp_upOrd_one]
  exact if_neg (ne_true_of_eq_false h)

/-- A pull does not look at PC and leaves it alone. -/
theorem pullIndex_advance (s : State) (n : Nat) :
    (s.advance n).pullIndex = (s.pullIndex.1, { s.advance n with sp := s.pullIndex.2.sp }) := by
  cases hx : s.flag .x
  · rw [pullIndex_of_not_x hx]
    exact pullIndex_of_not_x (s := s.advance n) hx
  · rw [pullIndex_of_x hx]
    exact pullIndex_of_x (s := s.advance n) hx

theorem exec_plx (s : State) :
    exec .plx s = .next { s with
      pc := s.pc + 1
      sp := s.pullIndex.2.sp
      x := s.intoIndex s.x s.pullIndex.1
      p := setNZIndex s.p s.pullIndex.1 } := by
  rw [exec, execPlx, pullIndex_advance]
  rfl

theorem exec_ply (s : State) :
    exec .ply s = .next { s with
      pc := s.pc + 1
      sp := s.pullIndex.2.sp
      y := s.intoIndex s.y s.pullIndex.1
      p := setNZIndex s.p s.pullIndex.1 } := by
  rw [exec, execPly, pullIndex_advance]
  rfl

/-- Settles O48: `P.X` picks the byte or the word, for the pull, the register and N and Z alike. -/
theorem plxPlyPullIndexRegister : Obligations.PlxPlyPullIndexRegister := by
  refine ⟨fun _ _ _ => rfl, fun _ _ _ => rfl, fun s hx => ?_, fun s hx => ?_⟩
  · simp only [exec_plx, exec_ply, pullIndex_of_x hx, intoIndex_of_x hx, setNZIndex_of_x hx, loByte_wordOf, and_self]
  · simp only [exec_plx, exec_ply, pullIndex_of_not_x hx, intoIndex_of_not_x hx, setNZIndex_of_not_x hx, and_self]

end Sys2Proof.Machine
end

section
/-! PROOFS. STZ, TSB and TRB: the operand of each mode, the bytes written at each width, and Z. -/

namespace Sys2Proof.Machine

open Sys2Proof.Claim

/-! ## The operand of each mode (R170) -/

theorem directPage_eq (s : State) (dp : Byte) :
    s.directPage dp = ⟨directAddr s dp.toNat, directAddr s (dp.toNat + 1)⟩ := by
  simp only [State.directPage, bank0_dirAddr]

theorem directPageX_eq (s : State) (dp : Byte) :
    s.directPageX dp = ⟨directAddr s (dp.toNat + s.x.toNat), directAddr s (dp.toNat + s.x.toNat + 1)⟩ := by
  simp only [State.directPageX, bank0_dirAddr]

/-- STZ clears the operand that the statements name, in each of its modes. -/
theorem exec_stz {s : State} {i : Instr} {lo hi : Addr}
    (hmode : ∃ abs dp, i = .stzAbs abs ∨ i = .stzAbsX abs ∨ i = .stzDp dp ∨ i = .stzDpX dp)
    (hop : memoryOperand s i = some (lo, hi)) : exec i s = s.storeZero i.length ⟨lo, hi⟩ := by
  obtain ⟨abs, dp, rfl | rfl | rfl | rfl⟩ := hmode <;> cases hop
  · rfl
  · rfl
  · exact congrArg (s.storeZero 2) (directPage_eq s dp)
  · exact congrArg (s.storeZero 2) (directPageX_eq s dp)

/-- TSB tests and writes the operand that the statements name, in both of its modes. -/
theorem exec_tsb {s : State} {i : Instr} {lo hi : Addr} (hmode : ∃ abs dp, i = .tsbAbs abs ∨ i = .tsbDp dp)
    (hop : memoryOperand s i = some (lo, hi)) : exec i s = s.testAndWrite i.length ⟨lo, hi⟩ setBits := by
  obtain ⟨abs, dp, rfl | rfl⟩ := hmode <;> cases hop
  · rfl
  · exact congrArg (s.testAndWrite 2 · setBits) (directPage_eq s dp)

/-- TRB tests and writes the operand that the statements name, in both of its modes. -/
theorem exec_trb {s : State} {i : Instr} {lo hi : Addr} (hmode : ∃ abs dp, i = .trbAbs abs ∨ i = .trbDp dp)
    (hop : memoryOperand s i = some (lo, hi)) : exec i s = s.testAndWrite i.length ⟨lo, hi⟩ resetBits := by
  obtain ⟨abs, dp, rfl | rfl⟩ := hmode <;> cases hop
  · rfl
  · exact congrArg (s.testAndWrite 2 · resetBits) (directPage_eq s dp)

/-! ## The two bytes of an operand are different bytes -/

/-- The high byte lies at the next of the 2^24 addresses, or at the next direct-page offset (R65, R67, R68). -/
theorem memoryOperand_cases {s : State} {i : Instr} {lo hi : Addr} (h : memoryOperand s i = some (lo, hi)) :
    hi = lo + 1 ∨ ∃ off, lo = directAddr s off ∧ hi = directAddr s (off + 1) := by
  cases i with
  | stzAbs _ | tsbAbs _ | trbAbs _ | stzAbsX _ => cases h; exact .inl rfl
  | stzDp _ | tsbDp _ | trbDp _ | stzDpX _ => cases h; exact .inr ⟨_, rfl, rfl⟩
  | _ => cases h

/-- Neither wrap of R65 brings the next offset back to the same byte. -/
theorem directAddr_succ_ne (s : State) (off : Nat) : directAddr s (off + 1) ≠ directAddr s off := by
  unfold directAddr
  split
  · rw [Ne, bank0_inj, wordOf_inj, BitVec.ofNat_add]
    bv_omega
  · rw [Ne, bank0_inj, BitVec.ofNat_add]
    bv_omega

theorem memoryOperand_ne {s : State} {i : Instr} {lo hi : Addr} (h : memoryOperand s i = some (lo, hi)) : lo ≠ hi := by
  obtain rfl | ⟨off, rfl, rfl⟩ := memoryOperand_cases h
  · bv_omega
  · exact (directAddr_succ_ne s off).symm

theorem nodup_operandAddrs {lo hi : Addr} (h : lo ≠ hi) (s : State) : (operandAddrs s lo hi).Nodup := by
  unfold operandAddrs
  split <;> simp [h]

/-! ## The stores of an operand (R56, R171, R172, R173) -/

theorem map_fst_zeroStores (s : State) (o : Operand) : (s.zeroStores o).map Prod.fst = operandAddrs s o.lo o.hi := by
  unfold State.zeroStores operandAddrs
  split <;> rfl

/-- A word's high byte is stored first, so the addresses stand in the other order. -/
theorem map_fst_rmwStores_perm (s : State) (o : Operand) (v : Word) :
    ((s.rmwStores o v).map Prod.fst).Perm (operandAddrs s o.lo o.hi) := by
  unfold State.rmwStores operandAddrs
  split
  · exact .refl _
  · exact .swap _ _ _

/-- An instruction that writes PC, P and an operand, where none of its stores falls on its own bytes. -/
theorem exec_storeAll_of_clear {i : Instr} {s : State} {p : Byte} {ws : List Store} {lo hi : Addr}
    (he : exec i s = s.finish i.length ws (({ s.advance i.length with p := p } : State).storeAll ws))
    (hws : (ws.map Prod.fst).Perm (operandAddrs s lo hi)) (hop : memoryOperand s i = some (lo, hi)) (hm : s.memOk)
    (hclear : s.clearOfOwn i.length (operandAddrs s lo hi)) :
    ∃ t, exec i s = .next t ∧
      t = { s with pc := s.pc + BitVec.ofNat 16 i.length, p := p, mem := t.mem, deviceOut := t.deviceOut } ∧
      s.afterStores t ws := by
  have hframe : StoresTo s { s.advance i.length with p := p } [] := by constructor <;> rfl
  have hnodup := hws.nodup_iff.2 (nodup_operandAddrs (memoryOperand_ne hop) s)
  have hown : s.clearOfOwn i.length (ws.map Prod.fst) := fun a ha => hclear a (hws.mem_iff.1 ha)
  exact ⟨_, he.trans (finish_of_clear hown _), storeAll_eq _ ws,
    (hframe.trans_nil (StoresTo.storeAll _ ws)).afterStores hm hnodup (by simp)⟩

/-! ## STZ (R171) -/

/-- Settles O52: the stores of STZ are the zero bytes of its operand, and P is as before. -/
theorem stzClearsOperand : Obligations.StzClearsOperand := by
  refine ⟨fun _ _ _ => ⟨rfl, rfl, rfl, rfl⟩, fun s i lo hi hmode hop hm hclear => ?_⟩
  exact exec_storeAll_of_clear (p := s.p) (exec_stz hmode hop) (.of_eq (map_fst_zeroStores s ⟨lo, hi⟩)) hop hm hclear

/-! ## TSB and TRB (R172, R173) -/

/-- Z is bit 1 (R28). -/
theorem setFlag_z (p : Byte) (v : Bool) : setFlag p .z v = onlyZ p v := by
  refine eq_of_flagIn fun f => ?_
  rw [onlyZ, flagIn_setFlag, flagIn_or, flagIn_and]
  cases f <;> cases v <;> simp [flagIn, bitOf]

theorem accOp_of_m {s : State} (h : s.flag .m = true) : s.accOp = wordOf 0 (loByte s.a) := if_pos h

theorem accOp_of_not_m {s : State} (h : s.flag .m = false) : s.accOp = s.a := if_neg (ne_true_of_eq_false h)

theorem readOp_of_m {s : State} (h : s.flag .m = true) (o : Operand) : s.readOp o = wordOf 0 (s.readByte o.lo) := if_pos h

theorem readOp_of_not_m {s : State} (h : s.flag .m = false) (o : Operand) :
    s.readOp o = wordOf (s.readByte o.hi) (s.readByte o.lo) := if_neg (ne_true_of_eq_false h)

theorem rmwStores_of_m {s : State} (h : s.flag .m = true) (o : Operand) (v : Word) :
    s.rmwStores o v = [(o.lo, loByte v)] := if_pos h

theorem rmwStores_of_not_m {s : State} (h : s.flag .m = false) (o : Operand) (v : Word) :
    s.rmwStores o v = [(o.hi, hiByte v), (o.lo, loByte v)] := if_neg (ne_true_of_eq_false h)

@[simp] theorem loByte_setBits (w acc : Word) : loByte (setBits w acc) = loByte w ||| loByte acc := BitVec.extractLsb'_or

@[simp] theorem hiByte_setBits (w acc : Word) : hiByte (setBits w acc) = hiByte w ||| hiByte acc := BitVec.extractLsb'_or

/-- The complement is taken byte by byte. -/
theorem not_eq_wordOf (w : Word) : ~~~w = wordOf (~~~hiByte w) (~~~loByte w) :=
  calc ~~~w = ~~~wordOf (hiByte w) (loByte w) := by rw [wordOf_hiByte_loByte]
    _ = wordOf (~~~hiByte w) (~~~loByte w) := BitVec.not_append

@[simp] theorem loByte_resetBits (w acc : Word) : loByte (resetBits w acc) = loByte w &&& ~~~loByte acc := by
  rw [resetBits, not_eq_wordOf, loByte, BitVec.extractLsb'_and, ← loByte, ← loByte, loByte_wordOf]

@[simp] theorem hiByte_resetBits (w acc : Word) : hiByte (resetBits w acc) = hiByte w &&& ~~~hiByte acc := by
  rw [resetBits, not_eq_wordOf, hiByte, BitVec.extractLsb'_and, ← hiByte, ← hiByte, hiByte_wordOf]

/-- Two bytes extended with zeros have a 1 bit in common where the bytes have. -/
theorem wordOf_zero_and_eq_zero (b c : Byte) : wordOf 0 b &&& wordOf 0 c = 0 ↔ b &&& c = 0 := by
  have hand : wordOf 0 b &&& wordOf 0 c = wordOf 0 (b &&& c) := BitVec.and_append
  have hzero : (0 : Word) = wordOf 0 0 := rfl
  rw [hand, hzero, wordOf_inj]
  exact and_iff_right rfl

/-- TSB or TRB completed with 8 bits: AL and the operand's low byte alone count. -/
theorem exec_testAndWrite_of_m {i : Instr} {s : State} {lo hi : Addr} {f : Word → Word → Word}
    (he : exec i s = s.testAndWrite i.length ⟨lo, hi⟩ f) (hop : memoryOperand s i = some (lo, hi)) (hm : s.memOk)
    (hclear : s.clearOfOwn i.length (operandAddrs s lo hi)) (hM : s.flag .m = true) :
    ∃ t, exec i s = .next t ∧
      t = { s with
        pc := s.pc + BitVec.ofNat 16 i.length
        p := onlyZ s.p (decide (loByte s.a &&& s.readByte lo = 0))
        mem := t.mem
        deviceOut := t.deviceOut } ∧
      s.afterStores t [(lo, loByte (f (wordOf 0 (s.readByte lo)) (wordOf 0 (loByte s.a))))] := by
  have h := exec_storeAll_of_clear he (map_fst_rmwStores_perm s _ _) hop hm hclear
  simpa only [setTestZ, setFlag_z, rmwStores_of_m hM, readOp_of_m hM, accOp_of_m hM, wordOf_zero_and_eq_zero] using h

/-- TSB or TRB completed with 16 bits: the high byte is stored first. -/
theorem exec_testAndWrite_of_not_m {i : Instr} {s : State} {lo hi : Addr} {f : Word → Word → Word}
    (he : exec i s = s.testAndWrite i.length ⟨lo, hi⟩ f) (hop : memoryOperand s i = some (lo, hi)) (hm : s.memOk)
    (hclear : s.clearOfOwn i.length (operandAddrs s lo hi)) (hM : s.flag .m = false) :
    ∃ t, exec i s = .next t ∧
      t = { s with
        pc := s.pc + BitVec.ofNat 16 i.length
        p := onlyZ s.p (decide (s.a &&& wordOf (s.readByte hi) (s.readByte lo) = 0))
        mem := t.mem
        deviceOut := t.deviceOut } ∧
      s.afterStores t [(hi, hiByte (f (wordOf (s.readByte hi) (s.readByte lo)) s.a)),
        (lo, loByte (f (wordOf (s.readByte hi) (s.readByte lo)) s.a))] := by
  have h := exec_storeAll_of_clear he (map_fst_rmwStores_perm s _ _) hop hm hclear
  simpa only [setTestZ, setFlag_z, rmwStores_of_not_m hM, readOp_of_not_m hM, accOp_of_not_m hM] using h

/-- Settles O53: at each width the bytes stored are those of the operand with the accumulator's bits set. -/
theorem tsbSetsOperandBits : Obligations.TsbSetsOperandBits := by
  refine ⟨fun _ _ _ => ⟨rfl, rfl⟩, fun s i lo hi hmode hop hm hclear => ⟨fun hM => ?_, fun hM => ?_⟩⟩
  · simpa only [loByte_setBits, loByte_wordOf] using exec_testAndWrite_of_m (exec_tsb hmode hop) hop hm hclear hM
  · simpa only [hiByte_setBits, loByte_setBits, hiByte_wordOf, loByte_wordOf] using
      exec_testAndWrite_of_not_m (exec_tsb hmode hop) hop hm hclear hM

/-- Settles O54: at each width the bytes stored are those of the operand with the accumulator's bits cleared. -/
theorem trbResetsOperandBits : Obligations.TrbResetsOperandBits := by
  refine ⟨fun _ _ _ => ⟨rfl, rfl⟩, fun s i lo hi hmode hop hm hclear => ⟨fun hM => ?_, fun hM => ?_⟩⟩
  · simpa only [loByte_resetBits, loByte_wordOf] using exec_testAndWrite_of_m (exec_trb hmode hop) hop hm hclear hM
  · simpa only [hiByte_resetBits, loByte_resetBits, hiByte_wordOf, loByte_wordOf] using
      exec_testAndWrite_of_not_m (exec_trb hmode hop) hop hm hclear hM

end Sys2Proof.Machine
end

section
/-! PROOFS. The IRQ at a boundary, with its mask settled or not, and the ABORT during an instruction. -/

namespace Sys2Proof.Machine

open Sys2Proof.Claim

/-! ## IRQ -/

/-- R207 lines 4 and 5: with no event before it, the mask test alone decides between an IRQ and the program. -/
theorem boundary_of_irq {s : State} (hreset : s.inputsNow.reset = false) (habort : s.inputsNow.abort = false)
    (hpending : s.abortPending = false) (hnmi : s.nmiNow = false) (hirq : s.inputsNow.irq = true) :
    s.boundary = if s.irqPasses then .interrupt .irq else .execute := by
  simp [State.boundary, State.abortDue, State.enter, hreset, habort, hpending, hnmi, hirq]

/-- An IRQ ends a wait before the mask is looked at, so that a waiting machine decides as a running one (R112). -/
theorem action_of_irq {s : State} (hrun : s.runState ≠ .stopped) (hreset : s.inputsNow.reset = false)
    (habort : s.inputsNow.abort = false) (hpending : s.abortPending = false) (hnmi : s.nmiNow = false)
    (hirq : s.inputsNow.irq = true) : s.action = if s.irqPasses then .interrupt .irq else .execute := by
  have hboundary := boundary_of_irq hreset habort hpending hnmi hirq
  rw [action_of_modelled (by simp [habort])]
  cases hr : s.runState with
  | stopped => exact absurd hr hrun
  | running => simp [State.modelledAction, hr, hboundary]
  | waiting => simp [State.modelledAction, State.abortDue, hr, hreset, habort, hpending, hirq, hboundary]

/-- Where no REP or SEP has just changed `P.I` the mask test is of its present value (R207 line 4). -/
theorem irqPasses_of_unmasked {s : State} (hc : s.iJustChanged = false) (hi : s.flag .i = false) : s.irqPasses = true := by
  simp [State.irqPasses, hc, hi]

/-- A step that takes an IRQ enters its sequence with PC as the return address; it writes neither latch. -/
theorem step_enters_of_irq {s : State} (hm : s.memOk) (hduring : s.inputsNow.resetDuring = false)
    (hnmi : s.inputsNow.nmi = false) (hact : s.action = .interrupt .irq) :
    ∃ t, step s = .next t ∧ entersInterrupt (pastBoundary s) t s.pc 0xFFEE 0xFFFE s.nmiPending s.abortPending :=
  ⟨(pastBoundary s).hardwareInterrupt .irq,
    by rw [step_eq_perform hduring, State.perform, hact, begun_eq_pastBoundary (.inr hnmi)],
    hardwareInterrupt_enters (s := pastBoundary s) hm .irq⟩

/-- Settles O18: the mask test passes, and the boundary takes the IRQ. -/
theorem irqTakenAtBoundary : Obligations.IrqTakenAtBoundary := by
  intro s hm hrun hreset hduring habort hpending hlatch hnmi hirq hi hc
  have hact : s.action = .interrupt .irq := by
    rw [action_of_irq hrun hreset habort hpending (by simp [State.nmiNow, hlatch, hnmi]) hirq,
      if_pos (irqPasses_of_unmasked hc hi)]
  simpa only [hlatch, hpending] using step_enters_of_irq hm hduring hnmi hact

/-! ## The boundary goes on to the program -/

/-- Whatever made the boundary of a running machine go on to the program, the instruction at `PB : PC` runs (R207 line 5). -/
theorem step_of_execute {s : State} (hrun : s.runState = .running) (hduring : s.inputsNow.resetDuring = false)
    (hnmi : s.inputsNow.nmi = false) (hact : s.action = .execute) :
    step s = (pastBoundary s).runInstruction s.inputsNow.abort := by
  rw [step_eq_perform hduring, State.perform, hact, begun_eq_pastBoundary (.inr hnmi)]
  exact congrArg (State.runInstruction · _) (pastBoundary_running hrun)

/-- Settles O19: the free value picks the outcome of the mask test, and each outcome is one of the two. -/
theorem irqAfterMaskChange : Obligations.IrqAfterMaskChange := by
  intro s i hm hrun hinputs hpending hlatch _ hfetch
  have hnmi : s.inputsNow.nmi = false := by rw [hinputs]; rfl
  have hduring : s.inputsNow.resetDuring = false := by rw [hinputs]; rfl
  have habort : s.inputsNow.abort = false := by rw [hinputs]; rfl
  have hact : s.action = if s.irqPasses then .interrupt .irq else .execute :=
    action_of_irq (by simp [hrun]) (by rw [hinputs]; rfl) habort hpending (by simp [State.nmiNow, hlatch, hnmi])
      (by rw [hinputs])
  cases hpass : s.irqPasses
  · left
    rw [step_of_execute hrun hduring hnmi (by simp [hact, hpass]), habort, runInstruction_of_ok hfetch]
  · right
    simpa only [hlatch, hpending] using step_enters_of_irq hm hduring hnmi (by simp [hact, hpass])

/-! ## ABORT during an instruction (R208) -/

/-- The edge of an ABORT that the model has is no event of the boundary at which its instruction starts (R207, R208). -/
theorem action_of_abort_during {s : State} (hmodel : s.abortModelled = true) (hrun : s.runState = .running)
    (hinputs : s.inputsNow = { Inputs.quiet with abort := true }) (hpending : s.abortPending = false)
    (hlatch : s.nmiPending = false) : s.action = .execute := by
  rw [action_of_modelled fun _ => hmodel]
  simp [State.modelledAction, State.boundary, State.abortDue, State.nmiNow, hrun, hinputs, hpending, hlatch, Inputs.quiet]

theorem runInstruction_of_aborted {s u : State} {i : Instr} (hfetch : s.fetch = .ok i) (hexec : exec i s = .next u) :
    s.runInstruction true = .next (s.discardRegisters u) := by
  simp [State.runInstruction, hfetch, hexec]

/-- Settles O20: the boundary goes on to the instruction, and of its outcome the stores alone are kept. -/
theorem abortDiscardsRegisters : Obligations.AbortDiscardsRegisters := by
  intro s u i hmodel hrun hinputs hpending hlatch hfetch hexec
  have hact := action_of_abort_during hmodel hrun hinputs hpending hlatch
  have hstep := step_of_execute hrun (by rw [hinputs]; rfl) (by rw [hinputs]; rfl) hact
  have habort : s.inputsNow.abort = true := by rw [hinputs]
  rw [hstep, habort]
  exact runInstruction_of_aborted hfetch hexec

end Sys2Proof.Machine
end

section
/-! PROOFS. The reset at a boundary and the reset that cuts a step short. -/

namespace Sys2Proof.Machine

open Sys2Proof.Claim

/-! ## Reset at a boundary (R230, R231) -/

/-- Reset sets M, X and I and clears D, which are bits 5, 4, 2 and 3 (R28, R44). -/
theorem resetP_eq (p : Byte) : resetP p = (p &&& 0xC3) ||| 0x34 := by
  refine eq_of_flagIn fun f => ?_
  simp only [resetP, flagIn_setFlag, flagIn_or, flagIn_and]
  cases f <;> simp [flagIn, bitOf]

/-- The frame of the reset sequence (R230). -/
theorem resetEntry_eq (s : State) : s.resetEntry = { s with
    e := true
    p := (s.p &&& 0xC3) ||| 0x34
    sp := s.resetEntry.sp
    x := wordOf 0 (loByte s.x)
    y := wordOf 0 (loByte s.y)
    d := 0
    db := 0
    pb := 0
    pc := s.resetEntry.pc
    runState := .running
    nmiPending := false
    abortPending := false } := by
  rw [← resetP_eq]
  rfl

/-- R207 line 1: in every RunState a reset is before every other event, an ABORT among them where the model has it (U7). -/
theorem action_of_reset {s : State} (hreset : s.inputsNow.reset = true)
    (habort : s.inputsNow.abort = true → s.abortModelled = true) : s.action = .reset := by
  rw [action_of_modelled habort]
  cases hr : s.runState <;> simp [State.modelledAction, State.boundary, hr, hreset]

/-- Settles O13: the boundary resets, and the sequence clears the latches that it finds. -/
theorem resetInputResets : Obligations.ResetInputResets := by
  intro s hreset hduring habort
  have hact := action_of_reset hreset habort
  exact ⟨s.begun.resetEntry, by rw [step_eq_perform hduring, State.perform, hact], resetValues_resetEntry _,
    resetEntry_eq s.begun⟩

/-! ## Reset during a step (R230, U13) -/

theorem step_of_cut {s u : State} (hduring : s.inputsNow.resetDuring = true) (hperform : s.perform = .next u) :
    step s = .next (s.begun.cutReset u) := by
  simp [step, hperform, hduring]

theorem read_cutReset {s u : State} (hs : s.memOk) (hu : u.memOk) (a : Nat) :
    Memory.read (s.cutReset u).mem a = Memory.read s.mem a ∨ Memory.read (s.cutReset u).mem a = Memory.read u.mem a :=
  (Memory.cut_spec (Config.cutWriteLands s.tick) hs hu).2 a

theorem deviceOut_cutReset (s u : State) :
    ∃ w, (s.cutReset u).deviceOut = s.deviceOut ++ w ∧ w <+: u.deviceOut.drop s.deviceOut.length :=
  ⟨_, rfl, List.take_prefix _ _⟩

/-- Settles O14: the cut mixes the memory before the step with the one that the step, run to its end, would leave. -/
theorem resetCutsStepShort : Obligations.ResetCutsStepShort := by
  intro s u hm hduring hperform
  exact ⟨s.begun.cutReset u, step_of_cut hduring hperform, resetValues_resetEntry _,
    read_cutReset (s := s.begun) hm (perform_memOk hm hperform), deviceOut_cutReset s.begun u⟩

end Sys2Proof.Machine
end
